-- ==== Sys2Proof/Word.lean ====
section
/-! DEFINITION. The word types of the core: a byte, a 16-byte block, the command word and the response word. -/

namespace Sys2Proof

/-- An 8-bit unsigned value: a byte of a block, OP, LEN, STATUS, FLAG. -/
abbrev Byte := BitVec 8

/-- A Block128 as its 128-bit unsigned value `val(B)`, byte 0 the most significant (R9). -/
abbrev Block128 := BitVec 128

/-- A command word, format CMD (R60). -/
abbrev CmdWord := BitVec 272

/-- A response word, format RSP (R62). -/
abbrev RspWord := BitVec 144

/-- The all-zero block (R14). -/
abbrev ZERO : Block128 := 0#128

/-- The block `80 00 .. 00`, the field's 1 (R11, R107). -/
abbrev ONE : Block128 := 0x80000000000000000000000000000000#128

/-- The block `40 00 .. 00`, the polynomial x (R11, R111). -/
abbrev XBLK : Block128 := 0x40000000000000000000000000000000#128

end Sys2Proof
end

