-- ==== Sys2Proof/Syntax.lean ====
section
/-! DEFINITION. The commands of GHC-1, one constructor per row of the opcode map (R66), and the pseudo-instructions (R72). -/

namespace Sys2Proof

/-- The seven opcodes by name (R66). -/
inductive Opcode where
  | gfmul | seth | init | setacc | step | getacc | verify
  deriving DecidableEq, Repr

/-- A decoded command with the operands it uses (R66). A field a command does not use is no part of it (R67). -/
inductive Instr where
  /-- GFMUL A, B: `a` is the scanned operand, `b` the doubled operand (R105). -/
  | gfmul (a b : Block128)
  /-- SETH A (R90). -/
  | seth (a : Block128)
  /-- INIT (R91). -/
  | init
  /-- SETACC A (R92). -/
  | setacc (a : Block128)
  /-- STEP A (R120). -/
  | step (a : Block128)
  /-- GETACC (R93). -/
  | getacc
  /-- VERIFY A, B, LEN: `a` is the computed tag, `b` the expected tag, `len` the LEN byte as it stands (R134). -/
  | verify (a b : Block128) (len : Byte)
  deriving DecidableEq, Repr

/-- The opcode of a command (R66). -/
def Instr.opcode : Instr → Opcode
  | .gfmul _ _ => .gfmul
  | .seth _ => .seth
  | .init => .init
  | .setacc _ => .setacc
  | .step _ => .step
  | .getacc => .getacc
  | .verify _ _ _ => .verify

/-- The three pseudo-instructions of the assembler (R72). -/
inductive Pseudo where
  /-- GHASH1 d, h: the single-block hash, data block first. -/
  | ghash1 (d h : Block128)
  /-- VERIFY4 a, b. -/
  | verify4 (a b : Block128)
  /-- VERIFYFULL a, b. -/
  | verifyFull (a b : Block128)
  deriving DecidableEq, Repr

end Sys2Proof
end

