-- ==== Sys2Proof/WellFormed.lean ====
section
/-! DEFINITION. What makes a command well formed. The types leave one check: the LEN of a VERIFY (R69). -/

namespace Sys2Proof

/-- LEN is in 1..16 (R69, R134). -/
def lenLegal (len : Byte) : Bool := decide (1 ≤ len.toNat ∧ len.toNat ≤ 16)

/-- A command that the core does not reject: any of the seven, a VERIFY only with a legal LEN (R63, R70). -/
def Instr.wf : Instr → Bool
  | .gfmul _ _ => true
  | .seth _ => true
  | .init => true
  | .setacc _ => true
  | .step _ => true
  | .getacc => true
  | .verify _ _ len => lenLegal len

end Sys2Proof
end

