-- ==== Sys2Proof/Decode.lean ====
section
/-! DEFINITION. The command word: its fields (R60), its bytes (R42), the opcode map (R66), the total decoder (R70) and,
after it, the encoder that writes canonical words (R73). -/

namespace Sys2Proof

/-! ## Fields -/

/-- OP is c[271:264] (R60). -/
def opOf (c : CmdWord) : Byte := c.extractLsb' 264 8

/-- LEN is c[263:256] (R60). -/
def lenOf (c : CmdWord) : Byte := c.extractLsb' 256 8

/-- A is c[255:128] (R60). -/
def aOf (c : CmdWord) : Block128 := c.extractLsb' 128 128

/-- B is c[127:0] (R60). -/
def bOf (c : CmdWord) : Block128 := c.extractLsb' 0 128

/-- The word with the four fields given (R60). -/
def mkWord (op len : Byte) (a b : Block128) : CmdWord := op ++ len ++ a ++ b

/-! ## The word as bytes -/

/-- The 34 bytes of a command word, byte 0 (OP) first: `byte j = c[271-8j : 264-8j]` (R42). -/
def wordBytes (c : CmdWord) : List Byte := (List.range 34).map fun j => c.extractLsb' (264 - 8 * j) 8

/-- Bytes, most significant first, as one number: how a word or a block is read from its bytes (R9, R42). -/
def bytesValue (l : List Byte) : Nat := l.foldl (fun acc x => acc * 256 + x.toNat) 0

/-! ## Opcodes -/

/-- The opcode byte (R66). -/
def Opcode.code : Opcode → Byte
  | .gfmul => 0x01#8
  | .seth => 0x02#8
  | .init => 0x03#8
  | .setacc => 0x04#8
  | .step => 0x05#8
  | .getacc => 0x06#8
  | .verify => 0x07#8

/-- The command an opcode byte names, none for 0x00 and 0x08..0xFF (R66, R68). -/
def opcodeOf (op : Byte) : Option Opcode :=
  if op = 0x01#8 then some .gfmul
  else if op = 0x02#8 then some .seth
  else if op = 0x03#8 then some .init
  else if op = 0x04#8 then some .setacc
  else if op = 0x05#8 then some .step
  else if op = 0x06#8 then some .getacc
  else if op = 0x07#8 then some .verify
  else none

/-! ## Decoder -/

/-- Why bits are no command. -/
inductive DecodeError where
  /-- OP names no command; the byte found (R68). Safe: the core answers ERR_ILLEGAL_OP (R153). -/
  | illegalOp (op : Byte)
  /-- A run of bytes that is not the 34 bytes of a command word (R70: every command is 272 bits). The core never sees one:
  its port is 272 bits wide (R190). -/
  | wrongLength (n : Nat)
  deriving DecidableEq, Repr

/-- Decoding of a 272-bit word: only OP selects the command, unused fields are ignored (R66, R67, R70). A VERIFY keeps
its LEN byte whatever it is, because R134 puts the check of LEN into the command. -/
def decode (c : CmdWord) : Except DecodeError Instr :=
  match opcodeOf (opOf c) with
  | some .gfmul => .ok (.gfmul (aOf c) (bOf c))
  | some .seth => .ok (.seth (aOf c))
  | some .init => .ok .init
  | some .setacc => .ok (.setacc (aOf c))
  | some .step => .ok (.step (aOf c))
  | some .getacc => .ok .getacc
  | some .verify => .ok (.verify (aOf c) (bOf c) (lenOf c))
  | none => .error (.illegalOp (opOf c))

/-- What R70's `decode` answers: a command, a VERIFY with a bad LEN, or an illegal opcode. -/
inductive Decoded where
  | command (i : Instr)
  | badLen
  | illegalOp
  deriving DecidableEq, Repr

/-- R70's `decode`: OP first, then, for a VERIFY only, LEN (R158). -/
def classify (c : CmdWord) : Decoded :=
  match decode c with
  | .ok i => if i.wf then .command i else .badLen
  | .error _ => .illegalOp

/-- Decoding of a command written as bytes (R42): total, rejecting by name every run of bytes that is not 34 long. -/
def decodeBytes (l : List Byte) : Except DecodeError Instr :=
  if l.length = 34 then decode (BitVec.ofNat 272 (bytesValue l)) else .error (.wrongLength l.length)

/-- The command word whose `nbits` low bits, numbered as the opcode table numbers them, are `w`; the bits above are zero.
The table's word is the 272-bit number itself, OP in its top byte. -/
def tableWord (nbits w : Nat) : CmdWord := BitVec.ofNat 272 (w % 2 ^ nbits)

/-- The command the decoder reads from a word of the opcode table. -/
def decodeTableWord (nbits w : Nat) : Option Instr :=
  match decode (tableWord nbits w) with
  | .ok i => some i
  | .error _ => none

/-! ## Encoder -/

/-- The canonical word of a command: zero in every unused field (R73). -/
def encode : Instr → CmdWord
  | .gfmul a b => mkWord (Opcode.code .gfmul) 0 a b
  | .seth a => mkWord (Opcode.code .seth) 0 a 0
  | .init => mkWord (Opcode.code .init) 0 0 0
  | .setacc a => mkWord (Opcode.code .setacc) 0 a 0
  | .step a => mkWord (Opcode.code .step) 0 a 0
  | .getacc => mkWord (Opcode.code .getacc) 0 0 0
  | .verify a b len => mkWord (Opcode.code .verify) len a b

/-- The command a pseudo-instruction expands to (R72). -/
def expandPseudo : Pseudo → Instr
  | .ghash1 d h => .gfmul d h
  | .verify4 a b => .verify a b 4
  | .verifyFull a b => .verify a b 16

/-- A command word with its unused fields, by its OP, set to zero (R67, R73). A word whose OP names no command has no
canonical form and stays as it is. -/
def canonicalWord (c : CmdWord) : CmdWord :=
  match opcodeOf (opOf c) with
  | some .gfmul => mkWord (opOf c) 0 (aOf c) (bOf c)
  | some .seth => mkWord (opOf c) 0 (aOf c) 0
  | some .init => mkWord (opOf c) 0 0 0
  | some .setacc => mkWord (opOf c) 0 (aOf c) 0
  | some .step => mkWord (opOf c) 0 (aOf c) 0
  | some .getacc => mkWord (opOf c) 0 0 0
  | some .verify => c
  | none => c

end Sys2Proof
end

