-- ==== Sys2Proof/Machine/Operands.lean ====
section
/-! DEFINITION. Reading a block operand: its bytes (R9), its bit positions (R10), and its 16-byte form. -/

namespace Sys2Proof.Machine

/-- Byte k of a block, k in 0..15: `(val(B) >> (8*(15-k))) & 0xFF` (R9). -/
def byteAt (b : Block128) (k : Nat) : Byte := b.extractLsb' (8 * (15 - k)) 8

/-- Bit position p of a block, p in 0..127: `val(B)[127 - p]` (R10). -/
def pbit (b : Block128) (p : Nat) : Bool := b.getLsbD (127 - p)

/-- The 16 bytes of a block in array order (R9). -/
def toBytes (b : Block128) : Vector Byte 16 := Vector.ofFn fun k => byteAt b k.val

/-- The block with the 16 bytes given: `blk` of their value (R9). -/
def ofBytes (v : Vector Byte 16) : Block128 :=
  BitVec.ofNat 128 (v.toList.foldl (fun acc x => acc * 256 + x.toNat) 0)

/-- The block with only bit position p set, p in 0..127 (R111). -/
def bitBlock (p : Nat) : Block128 := ONE >>> p

end Sys2Proof.Machine
end

