-- ==== Sys2Proof/Machine/Flags.lean ====
section
/-! DEFINITION. The tag comparator (R130) and the FLAG byte of a response (R64), the one flag this core computes. -/

namespace Sys2Proof.Machine

/-- The running difference after the first n bytes: every byte is or-ed in, whatever the difference already holds (R130). -/
def diffAfter (c e : Block128) : Nat → Byte
  | 0 => 0
  | k + 1 => diffAfter c e k ||| (byteAt c k ^^^ byteAt e k)

/-- `verify(c, e, n)`: the first n bytes agree (R130). Meant for n in 1..16; the command rejects any other (R134). -/
def verify (c e : Block128) (n : Nat) : Bool := decide (diffAfter c e n = 0)

/-- FLAG of a VERIFY that found `b`: 0x01 for a match, else 0x00 (R62, R64). -/
def flagByte (b : Bool) : Byte := if b then 0x01 else 0x00

end Sys2Proof.Machine
end

