-- ==== Sys2Proof/Machine/State.lean ====
section
/-! DEFINITION. The state of the core: its two registers (R20), what its ports are doing (R31, R190), and the host's side of
the ports: the events still to come and the responses already taken (R15, R197). -/

namespace Sys2Proof.Machine

/-- A response (R14, R62): STATUS, FLAG and DATA, each as the host reads it. -/
structure Response where
  status : Byte
  flag : Byte
  data : Block128
  deriving DecidableEq, Repr

/-- The handshake (R190). While `rst_n` is 1, `cmd_ready` is 1 only in `idle` and `rsp_valid` only in `inFlight 0 r`; while
`rst_n` is 0 both are 0 (R180). -/
inductive Port where
  /-- No command in flight, no response pending: the core can accept a command. -/
  | idle
  /-- One command in flight; its response is valid after `wait` more cycles, and held until the host takes it. -/
  | inFlight (wait : Nat) (rsp : Response)
  deriving DecidableEq, Repr

/-- What the host does at the ports (R15, R181, R190). -/
inductive HostEvent where
  /-- The host takes a response that is pending, if there is one, and then has the word `c` accepted. -/
  | cmd (c : CmdWord)
  /-- The host takes the pending response, if there is one. -/
  | take
  /-- The host resets the core, whatever is in flight. -/
  | reset
  deriving DecidableEq, Repr

/-- The state. `h` and `acc` are all that is architectural (R20, R33). -/
structure State where
  /-- Register H, the subkey (R21). -/
  h : Block128
  /-- Register ACC, the accumulator (R22). -/
  acc : Block128
  /-- The handshake (R31, R190). -/
  port : Port
  /-- The model's own: the host events not yet handled, oldest first. -/
  events : List HostEvent
  /-- The model's own: the responses the host has taken, oldest first (R197). -/
  responses : List Response
  deriving DecidableEq, Repr

/-- `RESET_STATE` (R15, R32) with idle ports (R32, R180), before any host event. -/
def State.reset : State where
  h := ZERO
  acc := ZERO
  port := .idle
  events := []
  responses := []

/-- Reasons to stop with a fault. There is none: `exec` "has no stuck case, no undefined case and no case the model must
refuse" (R166), and a rejection is an ordinary next state with a response (R152). Safe: nothing raises one. -/
inductive Fault where
  deriving DecidableEq, Repr

/-- Reasons to refuse. -/
inductive Refusal where
  /-- An instruction that has no meaning yet: raised by no arm of `exec`, since all seven commands have their meaning.
  Safe. -/
  | notModelled (mnemonic : String)
  deriving DecidableEq, Repr

end Sys2Proof.Machine
end

