-- ==== Sys2Proof/Machine/Ops.lean ====
section
/-! DEFINITION. The named operations over the state: reading and writing the two registers (R20), answering a command
(R14), and `reject`, which is what this core has in place of taking an exception (R152). -/

namespace Sys2Proof.Machine

/-- What an operation on the state answers. -/
abbrev Result := Host.Outcome State Fault Refusal

/-- The next state, if there is one. -/
def nextOf : Result → Option State
  | .next s => some s
  | .fault _ => none
  | .refused _ => none

/-- Go on from the next state, if there is one. -/
def andThen (o : Result) (f : State → Result) : Result :=
  match o with
  | .next s => f s
  | .fault e => .fault e
  | .refused e => .refused e

/-! ## Status codes (R63) -/

/-- OK. -/
abbrev statusOk : Byte := 0x00#8

/-- ERR_ILLEGAL_OP. -/
abbrev statusIllegalOp : Byte := 0x01#8

/-- ERR_BAD_LEN. -/
abbrev statusBadLen : Byte := 0x02#8

/-! ## Registers -/

/-- The value of H (R13). -/
def readH (s : State) : Block128 := s.h

/-- The value of ACC (R13). -/
def readAcc (s : State) : Block128 := s.acc

/-- `H <- v`, all 128 bits (R13, R20). -/
def writeH (v : Block128) (s : State) : State := { s with h := v }

/-- `ACC <- v`, all 128 bits (R13, R20). -/
def writeAcc (v : Block128) (s : State) : State := { s with acc := v }

/-! ## Answering a command -/

/-- The response is on the response port, with no cycle left to wait (R190). -/
def answer (r : Response) (s : State) : State := { s with port := .inFlight 0 r }

/-- `respond(status, flag, data)` ends the step of a command (R14). -/
def respond (status flag : Byte) (data : Block128) (s : State) : Result :=
  .next (answer { status := status, flag := flag, data := data } s)

/-- `reject(status)`: H and ACC unchanged, FLAG 0x00, DATA ZERO (R14, R152). -/
def reject (status : Byte) (s : State) : Result := respond status 0x00 ZERO s

/-! ## The ports between commands -/

/-- The response that waits to be taken or is still to become valid, as a list of at most one. -/
def pending (s : State) : List Response :=
  match s.port with
  | .idle => []
  | .inFlight _ r => [r]

/-- The response in flight, if there is one, is transferred, and the core can accept a command again (R190, R193). -/
def transfer (s : State) : State := { s with port := .idle, responses := s.responses ++ pending s }

/-- Reset: H and ACC take their reset values and whatever is in flight is abandoned without a response (R32, R181, R182).
The host keeps the responses it has taken, and goes on with its events. -/
def resetCore (s : State) : State := { s with h := State.reset.h, acc := State.reset.acc, port := .idle }

/-! ## The response word -/

/-- The 144-bit word of a response (R62). -/
def rspWord (r : Response) : RspWord := r.status ++ r.flag ++ r.data

/-- The 18 bytes of a response word, byte 0 (STATUS) first: `byte j = r[143-8j : 136-8j]` (R42). -/
def rspBytes (w : RspWord) : List Byte := (List.range 18).map fun j => w.extractLsb' (136 - 8 * j) 8

end Sys2Proof.Machine
end

