-- ==== Sys2Proof/Machine/Comparator.lean ====
section
/-! DEFINITION. The command VERIFY (R134). -/

namespace Sys2Proof.Machine

/-- VERIFY A, B, LEN: reject a LEN outside 1..16, else FLAG says whether the first LEN bytes agree (R134, R154). -/
def execVerify (a b : Block128) (len : Byte) (s : State) : Host.Outcome State Fault Refusal :=
  if lenLegal len then respond statusOk (flagByte (verify a b len.toNat)) ZERO s else reject statusBadLen s

end Sys2Proof.Machine
end

