-- ==== Sys2Proof/Machine/Gf128.lean ====
section
/-! DEFINITION. The GF128 multiplier (R100 to R104): the function `gfmul` on 128-bit values (R102), which the commands use,
and beside it the byte-level form of R100. -/

namespace Sys2Proof.Machine

/-! ## On 128-bit values -/

/-- The reduction byte 0xE1 in byte 0 (R6, R101). -/
def reduction : Block128 := 0xE1#128 <<< 120

/-- The doubling step, multiplication by the polynomial x: save lsb, shift right by one, reduce if lsb was 1 (R101). -/
def dbl (v : Block128) : Block128 := (v >>> 1) ^^^ (if v.getLsbD 0 then reduction else 0)

/-- The working values of the loop (R31, R100): the running product and the doubled operand. -/
structure MulState where
  z : Block128
  v : Block128
  deriving DecidableEq, Repr

/-- Iteration i: the bit of x at position i adds the old v to z, then v is doubled (R100, R102). -/
def mulBody (x : Block128) (i : Nat) (m : MulState) : MulState where
  z := if pbit x i then m.z ^^^ m.v else m.z
  v := dbl m.v

/-- The working values after n iterations, that is at the top of iteration n (R103). -/
def mulAfter (x h : Block128) : Nat → MulState
  | 0 => ⟨ZERO, h⟩
  | n + 1 => mulBody x n (mulAfter x h n)

/-- The product of two blocks: 128 iterations, x scanned, h doubled (R100, R102). -/
def gfmul (x h : Block128) : Block128 := (mulAfter x h 128).z

/-! ## On bytes, as R100 writes it -/

/-- The right shift of all 128 bits by one: byte k takes its top bit from byte k-1, byte 0 takes a zero (R100). R100's loop
runs k from 15 down to 1, so each line reads the old v[k-1]; here all bytes are read before any is written. -/
def shiftBytes (v : Vector Byte 16) : Vector Byte 16 :=
  Vector.ofFn fun k => if k.val = 0 then v[0] >>> 1 else (v[k.val] >>> 1) ||| ((v[k.val - 1] &&& 1#8) <<< 7)

/-- lsb, shift, and 0xE1 into byte 0 if lsb was 1 (R100). -/
def dblBytes (v : Vector Byte 16) : Vector Byte 16 :=
  if v[15] &&& 1#8 = 1#8 then (shiftBytes v).set 0 ((shiftBytes v)[0] ^^^ 0xE1#8) else shiftBytes v

/-- The working values as bytes. -/
structure MulBytes where
  z : Vector Byte 16
  v : Vector Byte 16
  deriving DecidableEq, Repr

/-- `(x[i div 8] >> (7 - (i mod 8))) & 1`, i in 0..127 (R10, R100). -/
def bitOfBytes (x : Vector Byte 16) (i : Nat) : Byte := (x.toList.getD (i / 8) 0 >>> (7 - i % 8)) &&& 1#8

/-- Iteration i of R100 on bytes. -/
def mulBodyBytes (x : Vector Byte 16) (i : Nat) (m : MulBytes) : MulBytes where
  z := if bitOfBytes x i = 1#8 then Vector.ofFn fun k => m.z[k.val] ^^^ m.v[k.val] else m.z
  v := dblBytes m.v

/-- The working values after n iterations of R100. -/
def mulAfterBytes (x h : Vector Byte 16) : Nat → MulBytes
  | 0 => ⟨Vector.replicate 16 0, h⟩
  | n + 1 => mulBodyBytes x n (mulAfterBytes x h n)

/-- R100's `gfmul`, byte for byte. -/
def gfmulBytes (x h : Vector Byte 16) : Vector Byte 16 := (mulAfterBytes x h 128).z

end Sys2Proof.Machine
end

