-- ==== Sys2Proof/Machine/GhashStep.lean ====
section
/-! DEFINITION. The command STEP (R120) and the function a run of STEPs computes (R122). -/

namespace Sys2Proof.Machine

/-- One GHASH step: xor the block into the accumulator, then multiply by the subkey (R120). -/
def absorb (h acc d : Block128) : Block128 := gfmul (acc ^^^ d) h

/-- STEP A: `ACC <- gfmul(ACC xor A, H)`; DATA is the new ACC (R120). -/
def execStep (a : Block128) (s : State) : Host.Outcome State Fault Refusal :=
  let s' := writeAcc (absorb (readH s) (readAcc s) a) s
  respond statusOk 0x00 (readAcc s') s'

/-- `ghash(h, [d_1 .. d_n])`: the blocks absorbed in order from ZERO (R122). -/
def ghash (h : Block128) (ds : List Block128) : Block128 := ds.foldl (absorb h) ZERO

/-- The k-fold product `h^k` (R122). -/
def blockPow (h : Block128) : Nat → Block128
  | 0 => ONE
  | k + 1 => gfmul (blockPow h k) h

/-- `d_1*h^n xor d_2*h^(n-1) xor ... xor d_n*h` (R122). -/
def ghashPoly (h : Block128) : List Block128 → Block128
  | [] => ZERO
  | d :: ds => gfmul d (blockPow h (ds.length + 1)) ^^^ ghashPoly h ds

end Sys2Proof.Machine
end

