-- ==== Sys2Proof/Machine/Multiplier.lean ====
section
/-! DEFINITION. The command GFMUL (R105). -/

namespace Sys2Proof.Machine

/-- GFMUL A, B: DATA is the product; no register is read or written (R105). -/
def execGfmul (a b : Block128) (s : State) : Host.Outcome State Fault Refusal :=
  respond statusOk 0x00 (gfmul a b) s

end Sys2Proof.Machine
end

