-- ==== Sys2Proof/Machine/StateAccess.lean ====
section
/-! DEFINITION. The state access commands SETH, INIT, SETACC, GETACC (40_state_access.md). -/

namespace Sys2Proof.Machine

/-- SETH A: `H <- A`; the subkey is not echoed (R90). -/
def execSeth (a : Block128) (s : State) : Host.Outcome State Fault Refusal :=
  respond statusOk 0x00 ZERO (writeH a s)

/-- INIT: `ACC <- ZERO` (R91). -/
def execInit (s : State) : Host.Outcome State Fault Refusal :=
  respond statusOk 0x00 ZERO (writeAcc ZERO s)

/-- SETACC A: `ACC <- A` (R92). -/
def execSetacc (a : Block128) (s : State) : Host.Outcome State Fault Refusal :=
  respond statusOk 0x00 ZERO (writeAcc a s)

/-- GETACC: DATA is ACC, nothing is written (R93). -/
def execGetacc (s : State) : Host.Outcome State Fault Refusal :=
  respond statusOk 0x00 (readAcc s) s

end Sys2Proof.Machine
end

