-- ==== Sys2Proof/Machine/Dispatch.lean ====
section
/-! DEFINITION. `exec`: each command's meaning (R15, R66). -/

namespace Sys2Proof.Machine

def exec (i : Instr) (s : State) : Host.Outcome State Fault Refusal :=
  match i with
  | .gfmul a b => Sys2Proof.Machine.execGfmul a b s
  | .seth a => Sys2Proof.Machine.execSeth a s
  | .init => Sys2Proof.Machine.execInit s
  | .setacc a => Sys2Proof.Machine.execSetacc a s
  | .step a => Sys2Proof.Machine.execStep a s
  | .getacc => Sys2Proof.Machine.execGetacc s
  | .verify a b len => Sys2Proof.Machine.execVerify a b len s

end Sys2Proof.Machine
end

