-- ==== Sys2Proof/Machine/Events.lean ====
section
/-! DEFINITION. What a command word and a host event do to the state (R15, R181), and runs of them. -/

namespace Sys2Proof.Machine

/-- The core executes an accepted word: decode it and run the command, or reject an illegal opcode (R15, R153). -/
def runWord (c : CmdWord) (s : State) : Result :=
  match decode c with
  | .ok i => exec i s
  | .error _ => reject statusIllegalOp s

/-- One host event (R15, R181). A command is accepted only after the response before it was transferred (R190, R193). -/
def applyEvent (e : HostEvent) (s : State) : Result :=
  match e with
  | .cmd c => runWord c (transfer s)
  | .take => .next (transfer s)
  | .reset => .next (resetCore s)

/-- The next host event is handled; with none left the core stays idle and keeps its state (R5, R197). -/
def stepEvent (s : State) : Result :=
  match s.events with
  | [] => .next s
  | e :: es => applyEvent e { s with events := es }

/-- The host's next event is the command word given; the events it had follow. -/
def presentWord (c : CmdWord) (s : State) : State := { s with events := .cmd c :: s.events }

/-- Host events one after another: the fold of R15. -/
def applyAll : List HostEvent → State → Result
  | [], s => .next s
  | e :: es, s => andThen (applyEvent e s) (applyAll es)

/-- Command words one after another, each answered and its response taken before the next (R49). -/
def runWords (cs : List CmdWord) (s : State) : Result :=
  applyAll (cs.map .cmd ++ [.take]) s

/-- Commands one after another, in their canonical words (R73). -/
def runCommands (is : List Instr) (s : State) : Result := runWords (is.map encode) s

end Sys2Proof.Machine
end

