-- ==== Sys2Proof/Machine/Step.lean ====
section
/-! DEFINITION. One step of the core: the next host event (R15). -/

namespace Sys2Proof.Machine

/-- One step: the next host event is handled (R15). -/
def step (s : State) : Host.Outcome State Fault Refusal := stepEvent s

/-- `s` with the word of the opcode table as the host's next event. -/
def State.withFetchWord (s : State) (nbits w : Nat) : State := presentWord (tableWord nbits w) s

end Sys2Proof.Machine
end

