-- ==== Sys2Proof/Machine/Assembler.lean ====
section
/-! DEFINITION. The assembler's syntax (R71 to R73): one line of text to a command, and a command to its line. Text is a
list of characters. -/

namespace Sys2Proof.Machine

/-- Why a line is no command. -/
inductive AsmError where
  /-- The first word is no mnemonic and no pseudo-instruction (R71, R72). -/
  | unknownMnemonic
  /-- Too many or too few operands; a bare VERIFY among them (R72: no default LEN). -/
  | operandCount
  /-- A block operand is not exactly 32 hexadecimal digits (R71). -/
  | badBlock
  /-- A length operand is not a decimal integer that the LEN byte can hold (R60, R71). -/
  | badLen
  deriving DecidableEq, Repr

/-! ## Pieces of text -/

/-- Space or tab. -/
def isBlank (c : Char) : Bool := decide (c = ' ') || decide (c = '\t')

/-- Text without the blanks at its ends. -/
def trim (cs : List Char) : List Char := ((cs.dropWhile isBlank).reverse.dropWhile isBlank).reverse

/-- Text before the first `;` (R71). -/
def stripComment (cs : List Char) : List Char := cs.takeWhile fun c => decide (c ≠ ';')

/-- Text cut at every comma. -/
def splitCommas : List Char → List (List Char)
  | [] => [[]]
  | c :: cs =>
    if c = ',' then [] :: splitCommas cs
    else
      match splitCommas cs with
      | [] => [[c]]
      | w :: ws => (c :: w) :: ws

/-- The value of a decimal digit. -/
def decDigit (c : Char) : Option Nat := if 48 ≤ c.toNat ∧ c.toNat ≤ 57 then some (c.toNat - 48) else none

/-- The value of a hexadecimal digit, upper or lower case (R71). -/
def hexDigit (c : Char) : Option Nat :=
  if 48 ≤ c.toNat ∧ c.toNat ≤ 57 then some (c.toNat - 48)
  else if 97 ≤ c.toNat ∧ c.toNat ≤ 102 then some (c.toNat - 87)
  else if 65 ≤ c.toNat ∧ c.toNat ≤ 70 then some (c.toNat - 55)
  else none

/-- The number that a run of digits writes in a base, most significant digit first. -/
def digitsValue (base : Nat) (digit : Char → Option Nat) : Nat → List Char → Option Nat
  | acc, [] => some acc
  | acc, c :: cs =>
    match digit c with
    | some d => digitsValue base digit (acc * base + d) cs
    | none => none

/-- A block: exactly 32 hexadecimal digits, byte 0 first, no prefix (R9, R71). -/
def parseBlock (cs : List Char) : Except AsmError Block128 :=
  if cs.length = 32 then
    match digitsValue 16 hexDigit 0 cs with
    | some n => .ok (BitVec.ofNat 128 n)
    | none => .error .badBlock
  else .error .badBlock

/-- A length: a decimal integer in 0..255 (R60, R71). Whether VERIFY accepts it is the core's to say (R134). -/
def parseLen (cs : List Char) : Except AsmError Byte :=
  match cs with
  | [] => .error .badLen
  | _ :: _ =>
    match digitsValue 10 decDigit 0 cs with
    | some n => if n < 256 then .ok (BitVec.ofNat 8 n) else .error .badLen
    | none => .error .badLen

/-! ## Lines -/

/-- A command that takes no operand. -/
def noOperand (ops : List (List Char)) (i : Instr) : Except AsmError Instr :=
  match ops with
  | [] => .ok i
  | _ :: _ => .error .operandCount

/-- A command that takes one block. -/
def oneBlock (ops : List (List Char)) (f : Block128 → Instr) : Except AsmError Instr :=
  match ops with
  | [a] => (parseBlock a).map f
  | _ => .error .operandCount

/-- A command that takes two blocks. -/
def twoBlocks (ops : List (List Char)) (f : Block128 → Block128 → Instr) : Except AsmError Instr :=
  match ops with
  | [a, b] =>
    match parseBlock a with
    | .ok x => (parseBlock b).map (f x)
    | .error e => .error e
  | _ => .error .operandCount

/-- A command that takes two blocks and a length. -/
def twoBlocksLen (ops : List (List Char)) (f : Block128 → Block128 → Byte → Instr) : Except AsmError Instr :=
  match ops with
  | [a, b, n] =>
    match parseBlock a, parseBlock b with
    | .ok x, .ok y => (parseLen n).map (f x y)
    | .error e, _ => .error e
    | .ok _, .error e => .error e
  | _ => .error .operandCount

/-- The mnemonic of an opcode, upper case (R71). -/
def mnemonic : Opcode → List Char
  | .gfmul => ['G', 'F', 'M', 'U', 'L']
  | .seth => ['S', 'E', 'T', 'H']
  | .init => ['I', 'N', 'I', 'T']
  | .setacc => ['S', 'E', 'T', 'A', 'C', 'C']
  | .step => ['S', 'T', 'E', 'P']
  | .getacc => ['G', 'E', 'T', 'A', 'C', 'C']
  | .verify => ['V', 'E', 'R', 'I', 'F', 'Y']

/-- The command a mnemonic and its operands name: the seven of R71, then the three pseudo-instructions of R72. -/
def commandOf (word : List Char) (ops : List (List Char)) : Except AsmError Instr :=
  if word = mnemonic .gfmul then twoBlocks ops .gfmul
  else if word = mnemonic .seth then oneBlock ops .seth
  else if word = mnemonic .init then noOperand ops .init
  else if word = mnemonic .setacc then oneBlock ops .setacc
  else if word = mnemonic .step then oneBlock ops .step
  else if word = mnemonic .getacc then noOperand ops .getacc
  else if word = mnemonic .verify then twoBlocksLen ops .verify
  else if word = ['G', 'H', 'A', 'S', 'H', '1'] then twoBlocks ops fun d h => expandPseudo (.ghash1 d h)
  else if word = ['V', 'E', 'R', 'I', 'F', 'Y', '4'] then twoBlocks ops fun a b => expandPseudo (.verify4 a b)
  else if word = ['V', 'E', 'R', 'I', 'F', 'Y', 'F', 'U', 'L', 'L'] then
    twoBlocks ops fun a b => expandPseudo (.verifyFull a b)
  else .error .unknownMnemonic

/-- The operands of a line: the text after the mnemonic, cut at its commas. -/
def operandsOf (rest : List Char) : List (List Char) :=
  match trim rest with
  | [] => []
  | c :: cs => (splitCommas (c :: cs)).map trim

/-- One line of assembly: none where it holds only blanks and a comment (R71). -/
def parseLine (cs : List Char) : Except AsmError (Option Instr) :=
  match trim (stripComment cs) with
  | [] => .ok none
  | c :: body =>
    (commandOf ((c :: body).takeWhile fun x => !isBlank x) (operandsOf ((c :: body).dropWhile fun x => !isBlank x))).map some

/-- The command word of one line, in canonical form (R73). -/
def assembleLine (cs : List Char) : Except AsmError (Option CmdWord) := (parseLine cs).map fun o => o.map encode

/-! ## Writing a command as a line -/

/-- The digit of a value below 16, lower case. -/
def digitChar (n : Nat) : Char := if n < 10 then Char.ofNat (48 + n) else Char.ofNat (87 + n)

/-- A block as 32 hexadecimal digits, byte 0 first (R9). -/
def showBlock (b : Block128) : List Char := (List.range 32).map fun k => digitChar (b.toNat / 16 ^ (31 - k) % 16)

/-- A LEN byte in decimal. -/
def showLen (len : Byte) : List Char :=
  if len.toNat < 10 then [digitChar len.toNat]
  else if len.toNat < 100 then [digitChar (len.toNat / 10), digitChar (len.toNat % 10)]
  else [digitChar (len.toNat / 100), digitChar (len.toNat / 10 % 10), digitChar (len.toNat % 10)]

/-- Operands after a mnemonic, with a comma and a space between two. -/
def joinOperands : List (List Char) → List Char
  | [] => []
  | [w] => ' ' :: w
  | w :: ws => ' ' :: (w ++ ',' :: joinOperands ws)

/-- A command as a line of assembly: only the operands it uses (R67, R71). -/
def disassemble (i : Instr) : List Char :=
  mnemonic i.opcode ++
    joinOperands
      (match i with
      | .gfmul a b => [showBlock a, showBlock b]
      | .seth a => [showBlock a]
      | .init => []
      | .setacc a => [showBlock a]
      | .step a => [showBlock a]
      | .getacc => []
      | .verify a b len => [showBlock a, showBlock b, showLen len])

end Sys2Proof.Machine
end

