-- ==== Sys2Proof/Config.lean ====
section
/-! DEFINITION. What an implementation fixes and the spec leaves open: the latencies (R8, R194). No functional rule reads
them (R8); only the clocked layer does. Both are constants without a body, so no proof knows a value of one. -/

namespace Sys2Proof

/-- For each opcode byte of GHC-1, the number of cycles its latency exceeds the least one allowed: `LAT(op) - 1`. -/
opaque Config.extraLatency : Byte → Nat

/-- The same for the one latency `LAT(illegal)` that all illegal opcodes share (R194). -/
opaque Config.extraLatencyIllegal : Nat

end Sys2Proof
end

