-- ==== Sys2Proof/Machine/Ports.lean ====
section
/-! DEFINITION. The core clock by clock (R180, R190, R194): the same state and the same commands, driven by the input
pins, with the latency of each command counted. The functional layer (`step`) reads nothing of this file (R191). -/

namespace Sys2Proof.Machine

/-- The input pins at one rising edge of `clk` (R190). -/
structure Pins where
  /-- `rst_n`, active low. -/
  rstN : Bool
  /-- `cmd_valid`. -/
  cmdValid : Bool
  /-- `cmd`. -/
  cmd : CmdWord
  /-- `rsp_ready`. -/
  rspReady : Bool
  deriving DecidableEq, Repr

/-- `LAT(op)`: at least 1, a function of the opcode byte alone, one value for all illegal opcodes (R8, R194). -/
def lat (op : Byte) : Nat :=
  match opcodeOf op with
  | some _ => Config.extraLatency op + 1
  | none => Config.extraLatencyIllegal + 1

/-! ## Outputs -/

/-- `cmd_ready` (R180, R190): 0 while `rst_n` is 0, and 1 as soon as it is 1 again. -/
def cmdReady (rstN : Bool) (s : State) : Bool := rstN && decide (s.port = .idle)

/-- `rsp`, where the spec gives it a value: only while `rsp_valid` is 1. Where it is none the pins may hold anything
(U15). -/
def rspOut (rstN : Bool) (s : State) : Option RspWord :=
  match rstN, s.port with
  | true, .inFlight 0 r => some (rspWord r)
  | _, _ => none

/-- `rsp_valid` (R180, R190). -/
def rspValid (rstN : Bool) (s : State) : Bool := (rspOut rstN s).isSome

/-! ## One rising edge -/

/-- The response in flight becomes valid after n more cycles. -/
def delay (n : Nat) (s : State) : State :=
  match s.port with
  | .idle => s
  | .inFlight _ r => { s with port := .inFlight n r }

/-- A command is accepted: `cmd` is sampled, executed whole, and its response falls due after `LAT(OP)` cycles. The new H
and ACC cannot be observed before the response (R190), so they are written here. -/
def accept (c : CmdWord) (s : State) : Result :=
  andThen (runWord c s) fun t => .next (delay (lat (opOf c) - 1) t)

/-- One rising edge of `clk` (R180, R182, R190). Reset has priority over everything. -/
def clock (p : Pins) (s : State) : Result :=
  if p.rstN = false then .next (resetCore s)
  else
    match s.port with
    | .idle => if p.cmdValid then accept p.cmd s else .next s
    | .inFlight (n + 1) r => .next { s with port := .inFlight n r }
    | .inFlight 0 _ => if p.rspReady then .next (transfer s) else .next s

/-- Rising edges one after another. -/
def clockAll : List Pins → State → Result
  | [], s => .next s
  | p :: ps, s => andThen (clock p s) (clockAll ps)

/-! ## The clocked layer seen as host events -/

/-- The host event that one rising edge completes, if it completes one (R190). -/
def eventOf (p : Pins) (s : State) : Option HostEvent :=
  if p.rstN = false then some .reset
  else
    match s.port with
    | .idle => if p.cmdValid then some (.cmd p.cmd) else none
    | .inFlight (_ + 1) _ => none
    | .inFlight 0 _ => if p.rspReady then some .take else none

/-- The host events of a run of rising edges. -/
def eventsOf : List Pins → State → List HostEvent
  | [], _ => []
  | p :: ps, s =>
    (eventOf p s).toList ++
      match clock p s with
      | .next t => eventsOf ps t
      | .fault _ => []
      | .refused _ => []

/-- The state with the time left out: a command in flight has its response ready (R191). -/
def untimed (s : State) : State :=
  match s.port with
  | .idle => s
  | .inFlight _ r => { s with port := .inFlight 0 r }

end Sys2Proof.Machine
end

