-- ==== Sys2Proof/Safety.lean ====
section
/-! DEFINITION. What counts as a safe run: the responses the core may give (R63 to R65), and the host's side of the
handshake (R192). -/

namespace Sys2Proof.Machine

/-- A response the core may give: one of the three STATUS codes (R63), FLAG 0x00 or 0x01 (R64), FLAG 0x01 only with OK and
without data (R64, R65), and nothing in DATA with an error (R65). -/
abbrev Response.legal (r : Response) : Prop :=
  (r.status = statusOk ∨ r.status = statusIllegalOp ∨ r.status = statusBadLen) ∧
    (r.flag = 0x00 ∨ r.flag = 0x01) ∧
    (r.flag = 0x01 → r.status = statusOk ∧ r.data = ZERO) ∧
    (r.status ≠ statusOk → r.flag = 0x00 ∧ r.data = ZERO)

/-- Every response in flight and every response taken is one the core may give. -/
abbrev State.legal (s : State) : Prop := ∀ r ∈ s.responses ++ pending s, r.legal

/-- The host's duty at the command port (R192): a word once presented and not accepted stays on the pins. `hostObeys ps s`
looks at each two cycles that follow each other, from the state before the first. -/
def hostObeys : List Pins → State → Prop
  | [], _ => True
  | p :: ps, s =>
    (match ps with
      | [] => True
      | q :: _ =>
        p.cmdValid = true → cmdReady p.rstN s = false → q.cmdValid = true ∧ q.cmd = p.cmd) ∧
      (match clock p s with
        | .next t => hostObeys ps t
        | .fault _ => True
        | .refused _ => True)

/-- Two states that no answer but a STEP's can tell apart: they differ in H at most (R21). -/
abbrev State.agreeButH (s t : State) : Prop := s = { t with h := s.h }

/-- Two ports that an observer of `cmd_ready` and `rsp_valid` can never tell apart by their time: the same phase, and the
same number of cycles to wait (R194). -/
def sameTiming (p q : Port) : Prop :=
  match p, q with
  | .idle, .idle => True
  | .inFlight m _, .inFlight n _ => m = n
  | _, _ => False

/-- Input pins that agree on all but the operands: the same handshake and the same opcode byte (R194). -/
abbrev sameControl (p q : Pins) : Prop :=
  p.rstN = q.rstN ∧ p.cmdValid = q.cmdValid ∧ p.rspReady = q.rspReady ∧ opOf p.cmd = opOf q.cmd

end Sys2Proof.Machine
end

