-- ==== Sys2Proof/Certificates/Slice0/Obligations.lean ====
section
/-! DEFINITION. The statements for the provers. In all of them a command ends with its response on the response port, with
no cycle left to wait: `port := .inFlight 0 r` is the model's form of the spec's `respond` (log entry 1). -/

open Sys2Proof Sys2Proof.Machine

/-! ## The commands -/

/-- R90. SETH writes H and nothing else, answers OK with no data, and ignores LEN and B; under the zero subkey every later
STEP yields ZERO. -/
def Obligations.SethLoadsSubkey : Prop :=
  ∀ (a b : Block128) (len : Byte) (s : State),
    decode (mkWord 0x02 len a b) = .ok (.seth a) ∧
      exec (.seth a) s = .next { s with h := a, port := .inFlight 0 ⟨0x00, 0x00, ZERO⟩ } ∧
      ∀ d : Block128,
        exec (.step d) { s with h := ZERO } =
          .next { s with h := ZERO, acc := ZERO, port := .inFlight 0 ⟨0x00, 0x00, ZERO⟩ }

/-- R91. INIT clears ACC and nothing else, answers OK with no data, and ignores LEN, A and B; it is SETACC of ZERO, which is
marked derived in the spec (from R92). -/
def Obligations.InitClearsAccumulator : Prop :=
  ∀ (a b : Block128) (len : Byte) (s : State),
    decode (mkWord 0x03 len a b) = .ok .init ∧
      exec .init s = .next { s with acc := ZERO, port := .inFlight 0 ⟨0x00, 0x00, ZERO⟩ } ∧
      exec .init s = exec (.setacc ZERO) s

/-- R92. SETACC writes ACC and nothing else, whatever the block, answers OK with no data, and ignores LEN and B. -/
def Obligations.SetaccLoadsAccumulator : Prop :=
  ∀ (a b : Block128) (len : Byte) (s : State),
    decode (mkWord 0x04 len a b) = .ok (.setacc a) ∧
      exec (.setacc a) s = .next { s with acc := a, port := .inFlight 0 ⟨0x00, 0x00, ZERO⟩ }

/-- R93. GETACC answers ACC and writes nothing, and ignores LEN, A and B; after reset it answers ZERO, and straight after a
STEP it answers what that STEP answered. -/
def Obligations.GetaccReadsAccumulator : Prop :=
  (∀ (a b : Block128) (len : Byte) (s : State),
    decode (mkWord 0x06 len a b) = .ok .getacc ∧
      exec .getacc s = .next { s with port := .inFlight 0 ⟨0x00, 0x00, s.acc⟩ }) ∧
    exec .getacc State.reset = .next { State.reset with port := .inFlight 0 ⟨0x00, 0x00, ZERO⟩ } ∧
    ∀ (d : Block128) (s : State),
      ∃ t u : State,
        exec (.step d) s = .next t ∧ exec .getacc (transfer t) = .next u ∧ pending u = pending t ∧ u.acc = t.acc

/-- R105's command: GFMUL answers the product of its operands and writes nothing, and ignores LEN. -/
def Obligations.GfmulAnswersProduct : Prop :=
  ∀ (a b : Block128) (len : Byte) (s : State),
    decode (mkWord 0x01 len a b) = .ok (.gfmul a b) ∧
      exec (.gfmul a b) s = .next { s with port := .inFlight 0 ⟨0x00, 0x00, gfmul a b⟩ }

/-- R120. STEP: the block is xored into ACC byte by byte, the result is the scanned operand and H the doubled one; ACC takes
the product, DATA is the new ACC, H and all else is unchanged; LEN and B are ignored. -/
def Obligations.StepAbsorbsBlock : Prop :=
  ∀ (a b : Block128) (len : Byte) (s : State),
    decode (mkWord 0x05 len a b) = .ok (.step a) ∧
      (∀ k, k < 16 → byteAt (s.acc ^^^ a) k = byteAt s.acc k ^^^ byteAt a k) ∧
      exec (.step a) s =
        .next
          { s with acc := gfmul (s.acc ^^^ a) s.h, port := .inFlight 0 ⟨0x00, 0x00, gfmul (s.acc ^^^ a) s.h⟩ }

/-- R134. VERIFY with LEN in 1..16 answers OK with FLAG 0x01 exactly if the first LEN bytes agree; with any other LEN it is
rejected with ERR_BAD_LEN. It writes nothing in any case. -/
def Obligations.VerifyComparesPrefix : Prop :=
  ∀ (a b : Block128) (len : Byte) (s : State),
    decode (mkWord 0x07 len a b) = .ok (.verify a b len) ∧
      exec (.verify a b len) s =
        .next
          { s with
            port :=
              .inFlight 0
                (if len.toNat < 1 ∨ len.toNat > 16 then ⟨0x02, 0x00, ZERO⟩
                else ⟨0x00, if ∀ k < len.toNat, byteAt a k = byteAt b k then 0x01 else 0x00, ZERO⟩) }

/-! ## Rejections and responses -/

/-- R153. A word whose OP names no command is answered ERR_ILLEGAL_OP whatever its other fields hold, and changes neither H
nor ACC nor anything else; the all-zero and the all-ones word are examples. -/
def Obligations.IllegalOpcodeRejected : Prop :=
  (∀ (c : CmdWord) (s : State),
    (opOf c).toNat < 1 ∨ 7 < (opOf c).toNat →
      runWord c s = .next { s with port := .inFlight 0 ⟨0x01, 0x00, ZERO⟩ }) ∧
    (∀ s : State, runWord 0 s = .next { s with port := .inFlight 0 ⟨0x01, 0x00, ZERO⟩ }) ∧
    ∀ s : State, runWord (BitVec.allOnes 272) s = .next { s with port := .inFlight 0 ⟨0x01, 0x00, ZERO⟩ }

/-- R154. A VERIFY word whose LEN is 0x00 or 0x11 or more is answered ERR_BAD_LEN with FLAG 0x00, even for equal blocks, and
changes nothing; LEN 0x10 on equal blocks is answered with a match. -/
def Obligations.BadLenRejected : Prop :=
  (∀ (c : CmdWord) (s : State),
    opOf c = 0x07 → (lenOf c = 0x00 ∨ 0x11 ≤ (lenOf c).toNat) →
      runWord c s = .next { s with port := .inFlight 0 ⟨0x02, 0x00, ZERO⟩ }) ∧
    ∀ (a : Block128) (s : State),
      runWord (mkWord 0x07 0x00 a a) s = .next { s with port := .inFlight 0 ⟨0x02, 0x00, ZERO⟩ } ∧
        runWord (mkWord 0x07 0x11 a a) s = .next { s with port := .inFlight 0 ⟨0x02, 0x00, ZERO⟩ } ∧
        runWord (mkWord 0x07 0x10 a a) s = .next { s with port := .inFlight 0 ⟨0x00, 0x01, ZERO⟩ }

/-- R63. Every word gets exactly one of the three STATUS codes: 0x01 if OP is not one of 0x01..0x07, 0x02 if it is a VERIFY
with LEN 0 or greater than 16, else 0x00. -/
def Obligations.StatusOfEveryWord : Prop :=
  ∀ (c : CmdWord) (s : State),
    ∃ (t : State) (r : Response),
      runWord c s = .next t ∧ t.port = .inFlight 0 r ∧
        r.status =
          if (opOf c).toNat < 1 ∨ 7 < (opOf c).toNat then 0x01
          else if opOf c = 0x07 ∧ ((lenOf c).toNat = 0 ∨ 16 < (lenOf c).toNat) then 0x02
          else 0x00

/-- R64. FLAG is 0x01 in exactly one case, a VERIFY with LEN in 1..16 whose first LEN bytes agree, and 0x00 in every other. -/
def Obligations.FlagOfEveryWord : Prop :=
  ∀ (c : CmdWord) (s : State),
    ∃ (t : State) (r : Response),
      runWord c s = .next t ∧ t.port = .inFlight 0 r ∧
        r.flag =
          if opOf c = 0x07 ∧ 1 ≤ (lenOf c).toNat ∧ (lenOf c).toNat ≤ 16 ∧
              ∀ k < (lenOf c).toNat, byteAt (aOf c) k = byteAt (bOf c) k
          then 0x01
          else 0x00

/-- R65. DATA is the product for GFMUL, the new ACC for STEP, ACC for GETACC, and ZERO for every other word. -/
def Obligations.DataOfEveryWord : Prop :=
  ∀ (c : CmdWord) (s : State),
    ∃ (t : State) (r : Response),
      runWord c s = .next t ∧ t.port = .inFlight 0 r ∧
        r.data =
          if opOf c = 0x01 then gfmul (aOf c) (bOf c)
          else if opOf c = 0x05 then t.acc
          else if opOf c = 0x06 then s.acc
          else ZERO

/-- The register columns of R23's matrix, which the spec marks as derived: what every word writes into H and ACC, and that
it writes nothing else but its response; and SETH h; SETACC a reaches every pair of registers from every state (R33, marked
derived too). -/
def Obligations.RegistersAfterEveryWord : Prop :=
  (∀ (c : CmdWord) (s : State),
    ∃ t : State,
      runWord c s = .next t ∧
        t.h = (if opOf c = 0x02 then aOf c else s.h) ∧
        t.acc =
          (if opOf c = 0x03 then ZERO
          else if opOf c = 0x04 then aOf c
          else if opOf c = 0x05 then gfmul (s.acc ^^^ aOf c) s.h
          else s.acc) ∧
        t.events = s.events ∧ t.responses = s.responses) ∧
    ∀ (s : State) (h a : Block128), ∃ t : State, runCommands [.seth h, .setacc a] s = .next t ∧ t.h = h ∧ t.acc = a

/-! ## Encoding -/

/-- R60. The four fields of a command word by their bits and by its 34 bytes, and the word from its fields; the bits of the
two operands are named by their bit positions, as R61 names them. -/
def Obligations.CommandWordFields : Prop :=
  (∀ (op len : Byte) (a b : Block128),
    opOf (mkWord op len a b) = op ∧ lenOf (mkWord op len a b) = len ∧
      aOf (mkWord op len a b) = a ∧ bOf (mkWord op len a b) = b) ∧
    ∀ c : CmdWord,
      mkWord (opOf c) (lenOf c) (aOf c) (bOf c) = c ∧
        (∀ k < 8, (opOf c).getLsbD k = c.getLsbD (264 + k)) ∧
        (∀ k < 8, (lenOf c).getLsbD k = c.getLsbD (256 + k)) ∧
        (∀ p < 128, pbit (aOf c) p = c.getLsbD (255 - p)) ∧
        (∀ p < 128, pbit (bOf c) p = c.getLsbD (127 - p)) ∧
        wordBytes c = opOf c :: lenOf c :: ((toBytes (aOf c)).toList ++ (toBytes (bOf c)).toList)

/-- R42. Byte 0 of a word is its most significant 8 bits: a command is the bytes OP, LEN, A[0..15], B[0..15] and a response
the bytes STATUS, FLAG, DATA[0..15], in that order; reading the 34 bytes back gives the same command. With the bits of a
response's three fields. -/
def Obligations.WordsAsBytes : Prop :=
  (∀ (op len : Byte) (a b : Block128),
    wordBytes (mkWord op len a b) = op :: len :: ((toBytes a).toList ++ (toBytes b).toList)) ∧
    (∀ r : Response,
      rspBytes (rspWord r) = r.status :: r.flag :: (toBytes r.data).toList ∧
        (rspWord r).extractLsb' 136 8 = r.status ∧ (rspWord r).extractLsb' 128 8 = r.flag ∧
        (rspWord r).extractLsb' 0 128 = r.data) ∧
    (∀ (c : CmdWord) (w : RspWord),
      (∀ j < 34, (wordBytes c)[j]? = some (c.extractLsb' (272 - 8 - 8 * j) 8)) ∧
        ∀ j < 18, (rspBytes w)[j]? = some (w.extractLsb' (144 - 8 - 8 * j) 8)) ∧
    ∀ c : CmdWord, decodeBytes (wordBytes c) = decode c

/-- R70. Every 272-bit word is exactly one of the seven commands, a VERIFY with a bad LEN, or an illegal opcode. -/
def Obligations.ClassifyEveryWord : Prop :=
  ∀ c : CmdWord,
    classify c =
      if opOf c = 0x01 then .command (.gfmul (aOf c) (bOf c))
      else if opOf c = 0x02 then .command (.seth (aOf c))
      else if opOf c = 0x03 then .command .init
      else if opOf c = 0x04 then .command (.setacc (aOf c))
      else if opOf c = 0x05 then .command (.step (aOf c))
      else if opOf c = 0x06 then .command .getacc
      else if opOf c = 0x07 then
        if 1 ≤ (lenOf c).toNat ∧ (lenOf c).toNat ≤ 16 then .command (.verify (aOf c) (bOf c) (lenOf c)) else .badLen
      else .illegalOp

/-- R67. A field a command does not use is ignored: any value in it gives the same state and the same response. -/
def Obligations.UnusedFieldsIgnored : Prop :=
  ∀ (len len' : Byte) (a a' b b' : Block128) (s : State),
    runWord (mkWord 0x01 len a b) s = runWord (mkWord 0x01 len' a b) s ∧
      runWord (mkWord 0x02 len a b) s = runWord (mkWord 0x02 len' a b') s ∧
      runWord (mkWord 0x03 len a b) s = runWord (mkWord 0x03 len' a' b') s ∧
      runWord (mkWord 0x04 len a b) s = runWord (mkWord 0x04 len' a b') s ∧
      runWord (mkWord 0x05 len a b) s = runWord (mkWord 0x05 len' a b') s ∧
      runWord (mkWord 0x06 len a b) s = runWord (mkWord 0x06 len' a' b') s

/-- Decoding what the encoder wrote gives the command back, for every command with every operand, a VERIFY with an illegal
LEN too (R60, R66). -/
def Obligations.DecodeEncode : Prop := ∀ i : Instr, decode (encode i) = .ok i

/-- R73. The encoder writes zero into every unused field, so that the words of one command have one canonical form, and a
command's line is assembled to that word; with the spec's three examples. The lines here are those `disassemble` writes,
with every LEN: how they are spaced, their digits and the range of their length are the model's choice (log entry 11). -/
def Obligations.CanonicalEncoding : Prop :=
  (∀ (c : CmdWord) (i : Instr), decode c = .ok i → encode i = canonicalWord c) ∧
    (∀ i : Instr, assembleLine (disassemble i) = .ok (some (encode i))) ∧
    encode .init =
      mkWord 0x03 0x00 0x00000000000000000000000000000000 0x00000000000000000000000000000000 ∧
    encode (.seth 0x66e94bd4ef8a2c3b884cfa59ca342b2e) =
      mkWord 0x02 0x00 0x66e94bd4ef8a2c3b884cfa59ca342b2e 0x00000000000000000000000000000000 ∧
    encode (.verify 0x9f58946a0563efa96090affe7cd35553 0x0b75c01e32bf804ca68758855d724cbb 4) =
      mkWord 0x07 0x04 0x9f58946a0563efa96090affe7cd35553 0x0b75c01e32bf804ca68758855d724cbb

/-- Words written out whole decode to the commands they stand for: X14, X15, X16 and X7 of 95_test_vectors.md section 2.6,
command 7 of P4 in its section 3 (INIT), and R73's VERIFY example. A sanity statement. -/
def Obligations.WrittenWordsDecode : Prop :=
  decode 0x01ff0102030405060708090a0b0c0d0e0f1066e94bd4ef8a2c3b884cfa59ca342b2e#272 =
      .ok (.gfmul 0x0102030405060708090a0b0c0d0e0f10 0x66e94bd4ef8a2c3b884cfa59ca342b2e) ∧
    decode 0x025500112233445566778899aabbccddeeffffffffffffffffffffffffffffffffff#272 =
      .ok (.seth 0x00112233445566778899aabbccddeeff) ∧
    decode 0x03abffffffffffffffffffffffffffffffff12121212121212121212121212121212#272 = .ok .init ∧
    decode 0x05100102030405060708090a0b0c0d0e0f10ffffffffffffffffffffffffffffffff#272 =
      .ok (.step 0x0102030405060708090a0b0c0d0e0f10) ∧
    decode 0x07049f58946a0563efa96090affe7cd355530b75c01e32bf804ca68758855d724cbb#272 =
      .ok (.verify 0x9f58946a0563efa96090affe7cd35553 0x0b75c01e32bf804ca68758855d724cbb 4) ∧
    decode 0x81040102030405060708090a0b0c0d0e0f1066e94bd4ef8a2c3b884cfa59ca342b2e#272 = .error (.illegalOp 0x81)

/-! ## Assembly text -/

/-- Every command's line of assembly is read back as that command (R71). -/
def Obligations.ParseDisassembly : Prop := ∀ i : Instr, parseLine (disassemble i) = .ok (some i)

/-- R72. GHASH1 d, h is GFMUL d, h; VERIFY4 is VERIFY with 4, VERIFYFULL with 16; a bare VERIFY gets no default length. -/
def Obligations.PseudoInstructions : Prop :=
  ∀ a b : Block128,
    commandOf ['G', 'H', 'A', 'S', 'H', '1'] [showBlock a, showBlock b] = .ok (.gfmul a b) ∧
      commandOf ['V', 'E', 'R', 'I', 'F', 'Y', '4'] [showBlock a, showBlock b] = .ok (.verify a b 4) ∧
      commandOf ['V', 'E', 'R', 'I', 'F', 'Y', 'F', 'U', 'L', 'L'] [showBlock a, showBlock b] = .ok (.verify a b 16) ∧
      commandOf ['V', 'E', 'R', 'I', 'F', 'Y'] [showBlock a, showBlock b] = .error .operandCount

/-! ## Blocks -/

/-- R9. The value of a block is the sum of its bytes, byte 0 most significant, `blk` is the inverse, and the 32 hexadecimal
digits of a block, byte 0 first, are the digits of its value. -/
def Obligations.BlockValueFromBytes : Prop :=
  (∀ b : Block128,
    b.toNat = ((List.range 16).map fun k => (byteAt b k).toNat * 2 ^ (8 * (15 - k))).sum ∧
      (∀ k < 16, (byteAt b k).toNat = (b.toNat >>> (8 * (15 - k))) % 256) ∧ ofBytes (toBytes b) = b ∧
      parseBlock (showBlock b) = .ok b ∧ digitsValue 16 hexDigit 0 (showBlock b) = some b.toNat) ∧
    ∀ v : Vector Byte 16, toBytes (ofBytes v) = v

/-- R10. Bit position p is bit 7 - p mod 8 of byte p div 8, and bit 127 - p of the value. -/
def Obligations.BitPositions : Prop :=
  ∀ (b : Block128) (p : Nat),
    p < 128 → pbit b p = (byteAt b (p / 8)).getLsbD (7 - p % 8) ∧ pbit b p = b.getLsbD (127 - p)

/-! ## The multiplier -/

/-- The 128-bit form the commands use is R100's byte-level algorithm, byte for byte (R102, which the spec marks as
derived). -/
def Obligations.GfmulMatchesByteAlgorithm : Prop :=
  ∀ x h : Block128, toBytes (gfmul x h) = gfmulBytes (toBytes x) (toBytes h)

/-- The doubling step is the byte-level one; after a reduction the top byte is 0xE1 xor the old byte 0 shifted right, and its
bit 7 is 1 (R101, marked derived in the spec). -/
def Obligations.DoublingMatchesBytes : Prop :=
  ∀ v : Block128,
    toBytes (dbl v) = dblBytes (toBytes v) ∧
      (v.getLsbD 0 = true →
        byteAt (dbl v) 0 = 0xE1 ^^^ (byteAt v 0 >>> 1) ∧ (byteAt (dbl v) 0).getLsbD 7 = true)

/-- At the top of iteration i, v is h doubled i times and z the xor of the h doubled p times over the p < i where x has a
1; so the product is that xor over 0..127 (R103, marked derived in the spec). -/
def Obligations.MultiplierLoopInvariant : Prop :=
  (∀ (x h : Block128) (i : Nat),
    (mulAfter x h i).v = dbl^[i] h ∧
      (mulAfter x h i).z = (List.range i).foldl (fun z p => if pbit x p then z ^^^ dbl^[p] h else z) ZERO) ∧
    ∀ x h : Block128,
      gfmul x h = (List.range 128).foldl (fun z p => if pbit x p then z ^^^ dbl^[p] h else z) ZERO

/-- Zero on either side gives ZERO (R106, marked derived in the spec). -/
def Obligations.MultiplyByZero : Prop := ∀ x : Block128, gfmul x ZERO = ZERO ∧ gfmul ZERO x = ZERO

/-- The block 80 00 .. 00 is the identity on either side (R107, marked derived in the spec). -/
def Obligations.MultiplyByOne : Prop := ∀ x : Block128, gfmul ONE x = x ∧ gfmul x ONE = x

/-- R108. Multiplication is commutative. -/
def Obligations.MultiplyCommutes : Prop := ∀ x h : Block128, gfmul x h = gfmul h x

/-- Multiplication is linear in each operand, and doubling is linear (R109, marked derived in the spec). -/
def Obligations.MultiplyLinear : Prop :=
  ∀ a b c : Block128,
    gfmul (a ^^^ b) c = gfmul a c ^^^ gfmul b c ∧ gfmul c (a ^^^ b) = gfmul c a ^^^ gfmul c b ∧
      dbl (a ^^^ b) = dbl a ^^^ dbl b

/-- Multiplication is associative (R110, marked derived in the spec). -/
def Obligations.MultiplyAssociates : Prop := ∀ a b c : Block128, gfmul (gfmul a b) c = gfmul a (gfmul b c)

/-- Every non-zero block has exactly one inverse, and a non-zero factor cancels (R110, marked derived in the spec, which
takes the irreducibility of the polynomial from general knowledge). -/
def Obligations.NonzeroBlocksInvertible : Prop :=
  ∀ h : Block128,
    h ≠ ZERO → (∃! g : Block128, gfmul h g = ONE) ∧ ∀ a b : Block128, gfmul a h = gfmul b h → a = b

/-- The block with only bit position p set multiplies by doubling p times; for XBLK, p = 1, once (R111, marked derived in
the spec). -/
def Obligations.SingleBitOperands : Prop :=
  (∀ (p : Nat) (b : Block128), p < 128 → gfmul (bitBlock p) b = dbl^[p] b) ∧
    ∀ b : Block128, gfmul XBLK b = dbl b ∧ gfmul b XBLK = dbl b

/-! ## GHASH -/

/-- SETH h; INIT; STEP d_1; ..; STEP d_n; GETACC leaves ghash(h, [d_1..d_n]) in ACC, each STEP answers the hash so far and
GETACC the whole one (R122, marked derived in the spec). -/
def Obligations.GhashOverBlocks : Prop :=
  (∀ h : Block128, ghash h [] = ZERO) ∧
    (∀ (h d : Block128) (ds : List Block128), ghash h (ds ++ [d]) = gfmul (ghash h ds ^^^ d) h) ∧
    ∀ (h : Block128) (ds : List Block128) (s : State),
      ∃ t : State,
        runCommands (.seth h :: .init :: (ds.map .step ++ [.getacc])) s = .next t ∧
          t.h = h ∧ t.acc = ghash h ds ∧
          t.responses =
            s.responses ++ pending s ++
              ([⟨0x00, 0x00, ZERO⟩, ⟨0x00, 0x00, ZERO⟩] ++
                ((List.range ds.length).map fun k => ⟨0x00, 0x00, ghash h (ds.take (k + 1))⟩) ++
                [⟨0x00, 0x00, ghash h ds⟩])

/-- The hash is the polynomial d_1*h^n xor d_2*h^(n-1) xor .. xor d_n*h (R122, marked derived in the spec). -/
def Obligations.GhashIsPolynomial : Prop := ∀ (h : Block128) (ds : List Block128), ghash h ds = ghashPoly h ds

/-- The single-block hash: SETH h; INIT; STEP d answers what GFMUL d, h answers, and GFMUL touches no state (R123, marked
derived in the spec). -/
def Obligations.SingleBlockHash : Prop :=
  ∀ (h d : Block128) (s : State),
    ghash h [d] = gfmul d h ∧
      ∃ t : State,
        runCommands [.seth h, .init, .step d] s = .next t ∧ t.acc = gfmul d h ∧
          exec (expandPseudo (.ghash1 d h)) s = .next { s with port := .inFlight 0 ⟨0x00, 0x00, t.acc⟩ }

/-- The corner cases of STEP (R125, marked derived in the spec): a zero subkey, a block equal to ACC, a zero ACC, a zero
block, the subkey ONE, two steps, and that STEP is not idempotent. -/
def Obligations.StepCornerCases : Prop :=
  (∀ (s : State) (a : Block128),
    exec (.step a) s =
      .next { s with acc := absorb s.h s.acc a, port := .inFlight 0 ⟨0x00, 0x00, absorb s.h s.acc a⟩ }) ∧
    (∀ h acc a b : Block128,
      absorb ZERO acc a = ZERO ∧ absorb h acc acc = ZERO ∧ absorb h ZERO a = gfmul a h ∧
        absorb h acc ZERO = gfmul acc h ∧ absorb ONE acc a = acc ^^^ a ∧
        absorb h (absorb h ZERO a) b = gfmul (gfmul a h ^^^ b) h) ∧
    ∃ h acc a : Block128, absorb h (absorb h acc a) a ≠ absorb h acc a

/-- For a non-zero H two different blocks give different accumulators; the difference depends on the blocks' difference
alone; and for every length below 16 there are two blocks whose results agree on that prefix (R126, marked derived in the
spec). -/
def Obligations.StepSensitivity : Prop :=
  (∀ h acc a b : Block128, absorb h acc a ^^^ absorb h acc b = gfmul (a ^^^ b) h) ∧
    ∀ h acc : Block128,
      h ≠ ZERO →
        (∀ a b : Block128, absorb h acc a = absorb h acc b → a = b) ∧
          ∀ n : Nat, 1 ≤ n → n < 16 → ∃ a b : Block128, a ≠ b ∧ verify (absorb h acc a) (absorb h acc b) n = true

/-! ## The comparator -/

/-- R130. `verify` is true exactly if the first n bytes agree, bytes 0 to n-1, and it is the or of all n byte differences
that decides. -/
def Obligations.VerifyIffPrefixEqual : Prop :=
  ∀ (c e : Block128) (n : Nat),
    1 ≤ n → n ≤ 16 →
      (verify c e n = true ↔ ∀ k < n, byteAt c k = byteAt e k) ∧
        (verify c e n = true ↔ (List.range n).foldl (fun d k => d ||| (byteAt c k ^^^ byteAt e k)) 0 = 0)

/-- `verify` is that the top 8n bits of the difference are zero; it is reflexive, symmetric, keeps on shorter prefixes,
ignores bytes n..15, and is equality of blocks at n = 16 (R131 and R132, marked derived in the spec). -/
def Obligations.VerifyLaws : Prop :=
  ∀ (a b : Block128) (n : Nat),
    1 ≤ n → n ≤ 16 →
      (verify a b n = true ↔ (a ^^^ b) >>> (8 * (16 - n)) = ZERO) ∧
        verify a a n = true ∧ verify a b n = verify b a n ∧
        (∀ m, 1 ≤ m → m ≤ n → verify a b n = true → verify a b m = true) ∧
        (∀ a' b' : Block128,
          (∀ k < n, byteAt a' k = byteAt a k ∧ byteAt b' k = byteAt b k) → verify a' b' n = verify a b n) ∧
        (n = 16 → (verify a b n = true ↔ a = b))

/-! ## Whole-machine rules -/

/-- R32. The reset state: H and ACC are ZERO, no command in flight, no response pending, `cmd_ready` 1, `rsp_valid` 0; a STEP
before any SETH answers ZERO. -/
def Obligations.ResetState : Prop :=
  State.reset.h = ZERO ∧ State.reset.acc = ZERO ∧ State.reset.port = .idle ∧ pending State.reset = [] ∧
    cmdReady true State.reset = true ∧ rspValid true State.reset = false ∧
    ∀ d : Block128,
      exec (.step d) State.reset = .next { State.reset with port := .inFlight 0 ⟨0x00, 0x00, ZERO⟩ }

/-- A step handles the host's next event (R15): a command word that decodes runs that command, once the response before it
was taken; one that does not decode is rejected; a response is taken; reset resets; with no event the core is idle. The
fetched word of the interface runs the command it decodes to. -/
def Obligations.StepRunsDecodedCommand : Prop :=
  (∀ (s : State) (c : CmdWord) (es : List HostEvent) (i : Instr),
    decode c = .ok i →
      step { s with events := .cmd c :: es } = exec i (transfer { s with events := es })) ∧
    (∀ (s : State) (c : CmdWord) (es : List HostEvent) (e : DecodeError),
      decode c = .error e →
        step { s with events := .cmd c :: es } = reject 0x01 (transfer { s with events := es })) ∧
    (∀ (s : State) (es : List HostEvent),
      step { s with events := .take :: es } = .next (transfer { s with events := es }) ∧
        step { s with events := .reset :: es } = .next (resetCore { s with events := es }) ∧
        step { s with events := [] } = .next { s with events := [] }) ∧
    (∀ (s : State) (nbits w : Nat) (i : Instr),
      decodeTableWord nbits w = some i → step (s.withFetchWord nbits w) = exec i (transfer s)) ∧
    ∀ s : State, s.port = .idle → transfer s = s

/-- `exec` is total: every word gets a next state with a response, every step a next state, every run of the core goes on
(R166, marked derived in the spec). -/
def Obligations.EveryStepAnswers : Prop :=
  (∀ (c : CmdWord) (s : State), ∃ (t : State) (r : Response), runWord c s = .next t ∧ t.port = .inFlight 0 r) ∧
    (∀ (i : Instr) (s : State), ∃ t : State, exec i s = .next t) ∧
    ∀ (k : Nat) (s : State), ∃ t : State, Host.Core.run core k s = .next t

/-- The responses in flight and taken stay ones the core may give (R63 to R65), in every step from every such state. -/
def Obligations.StepKeepsResponsesLegal : Prop := ∀ s t : State, s.legal → step s = .next t → t.legal

/-- The same for every rising edge of the clock. -/
def Obligations.ClockKeepsResponsesLegal : Prop :=
  ∀ (p : Pins) (s t : State), s.legal → clock p s = .next t → t.legal

/-- The reset state has no response, so only legal ones: none is pending by R32, and that none has been taken is the model's
choice (log entry 2). -/
def Obligations.ResetResponsesLegal : Prop := State.reset.legal

/-- In a step H changes only by a SETH, to its operand, or by reset, to ZERO; ACC only by INIT, SETACC, STEP or reset, to
what each of them gives (R21, R22). -/
def Obligations.RegistersWrittenOnlyBy : Prop :=
  ∀ s t : State,
    step s = .next t →
      (t.h = s.h ∨
          (∃ c es, s.events = .cmd c :: es ∧ opOf c = 0x02 ∧ t.h = aOf c) ∨
          (∃ es, s.events = .reset :: es ∧ t.h = ZERO)) ∧
        (t.acc = s.acc ∨
          (∃ c es, s.events = .cmd c :: es ∧ opOf c = 0x03 ∧ t.acc = ZERO) ∨
          (∃ c es, s.events = .cmd c :: es ∧ opOf c = 0x04 ∧ t.acc = aOf c) ∨
          (∃ c es, s.events = .cmd c :: es ∧ opOf c = 0x05 ∧ t.acc = gfmul (s.acc ^^^ aOf c) s.h) ∨
          (∃ es, s.events = .reset :: es ∧ t.acc = ZERO))

/-- No command but STEP shows H: two cores that differ in H at most give the same responses to every run of words without
a STEP, and end with the same ACC (R21). -/
def Obligations.SubkeyShownOnlyByStep : Prop :=
  ∀ (cs : List CmdWord) (s t : State),
    s.agreeButH t → (∀ c ∈ cs, opOf c ≠ 0x05) →
      ∃ s' t' : State,
        runWords cs s = .next s' ∧ runWords cs t = .next t' ∧ s'.responses = t'.responses ∧ s'.acc = t'.acc

/-- R45. Every command but STEP is idempotent on the registers, and GETACC, GFMUL and VERIFY leave them as they are; any
number of GETACC answer the same block; STEP is not idempotent. -/
def Obligations.RepeatedCommands : Prop :=
  (∀ (i : Instr) (s : State),
    (∀ a, i ≠ .step a) →
      ∃ t u : State,
        exec i s = .next t ∧ exec i (transfer t) = .next u ∧ u.h = t.h ∧ u.acc = t.acc ∧ pending u = pending t) ∧
    (∀ (a b : Block128) (len : Byte) (s : State) (i : Instr),
      i = .getacc ∨ i = .gfmul a b ∨ i = .verify a b len →
        ∃ t : State, exec i s = .next t ∧ t.h = s.h ∧ t.acc = s.acc) ∧
    (∀ (n : Nat) (s : State),
      ∃ t : State,
        runCommands (List.replicate n .getacc) s = .next t ∧
          t.responses = s.responses ++ pending s ++ List.replicate n ⟨0x00, 0x00, s.acc⟩) ∧
    ∃ (a : Block128) (s t u : State),
      exec (.step a) s = .next t ∧ exec (.step a) (transfer t) = .next u ∧ u.acc ≠ t.acc

/-- A run of rejected words leaves H and ACC fixed and is answered by error responses alone (R159, marked derived in the
spec). -/
def Obligations.RejectedRunsChangeNothing : Prop :=
  ∀ (cs : List CmdWord) (s : State),
    (∀ c ∈ cs, ∀ i, classify c ≠ .command i) →
      ∃ (t : State) (rs : List Response),
        runWords cs s = .next t ∧ t.h = s.h ∧ t.acc = s.acc ∧ t.responses = s.responses ++ pending s ++ rs ∧
          rs.length = cs.length ∧ ∀ r ∈ rs, r = ⟨0x01, 0x00, ZERO⟩ ∨ r = ⟨0x02, 0x00, ZERO⟩

/-- The host's list of events is run by as many steps of the core as it has events, and the state is the fold over it
(R15). -/
def Obligations.RunIsFold : Prop :=
  ∀ (es : List HostEvent) (s : State),
    Host.Core.run core es.length { s with events := es } = applyAll es { s with events := [] }

/-- R49. Commands take effect one at a time in the order of acceptance, each sees the effects of those before it, and the
n-th response is the n-th command's, one for each. -/
def Obligations.ResponsesInOrder : Prop :=
  ∀ (cs : List CmdWord) (s : State),
    ∃ (t : State) (rs : List Response),
      runWords cs s = .next t ∧ t.port = .idle ∧ t.responses = s.responses ++ pending s ++ rs ∧
        rs.length = cs.length ∧
        ∀ (n : Nat) (c : CmdWord) (r : Response),
          cs[n]? = some c → rs[n]? = some r →
            ∃ u v : State, runWords (cs.take n) s = .next u ∧ runWord c u = .next v ∧ pending v = [r]

/-! ## The ports -/

/-- R180. While `rst_n` is 0 the core is not ready and answers nothing, and the edge leaves H and ACC at ZERO with nothing in
flight; once `rst_n` is 1 again, at the first rising edge, it is in that state and ready. Only reset and an accepted command
change H or ACC; SETH 0 and INIT bring the registers to the same values. That reset acts at an edge, and that the core is
ready as soon as `rst_n` is 1 again, is the model's choice (log entry 5); that an accepted command changes H and ACC at the
accepting edge and no later one is the model's reading of R190 (log entry 6). -/
def Obligations.ResetAtThePins : Prop :=
  (∀ s : State, cmdReady false s = false ∧ rspValid false s = false) ∧
    (∀ (p q : Pins) (s : State),
      p.rstN = false → q.rstN = true →
        ∃ t : State,
          clock p s = .next t ∧ t.h = ZERO ∧ t.acc = ZERO ∧ pending t = [] ∧
            rspValid q.rstN t = false ∧ cmdReady q.rstN t = true) ∧
    (∀ (p : Pins) (s t : State),
      clock p s = .next t → (t.h ≠ s.h ∨ t.acc ≠ s.acc) →
        p.rstN = false ∨ (p.cmdValid = true ∧ cmdReady p.rstN s = true)) ∧
    ∀ s : State, ∃ t : State, runCommands [.seth ZERO, .init] s = .next t ∧ t.h = ZERO ∧ t.acc = ZERO

/-- R182. Reset against a command in flight: if `rst_n` is 0 at an edge after a command was accepted and before its response
was transferred, no response of it is transferred, and H and ACC are the reset values, not the command's. Reset has
priority over everything. -/
def Obligations.ResetAbandonsCommand : Prop :=
  (∀ (p : Pins) (s : State),
    p.rstN = false → clock p s = .next { s with h := ZERO, acc := ZERO, port := .idle }) ∧
    ∀ (p q : Pins) (ps : List Pins) (s : State),
      s.port = .idle → p.rstN = true → p.cmdValid = true →
        (∀ r ∈ ps, r.rstN = true) → HostEvent.take ∉ eventsOf (p :: ps) s → q.rstN = false →
          clockAll (p :: (ps ++ [q])) s = .next { s with h := ZERO, acc := ZERO, port := .idle }

/-- A command presented to a ready core is answered after exactly `LAT(OP)` cycles, whatever the host does meanwhile short
of reset: not ready and not valid before, valid then, with the command's response (R190, R194, R196). What H and ACC hold
before that is the model's choice (log entry 6). -/
def Obligations.AnsweredAfterLatency : Prop :=
  ∀ (p : Pins) (ps : List Pins) (s : State),
    s.port = .idle → p.rstN = true → p.cmdValid = true → (∀ q ∈ ps, q.rstN = true) →
      ps.length + 1 ≤ lat (opOf p.cmd) →
        ∃ (t u : State) (r : Response),
          clockAll (p :: ps) s = .next t ∧ runWord p.cmd s = .next u ∧ pending u = [r] ∧
            cmdReady true t = false ∧ t.h = u.h ∧ t.acc = u.acc ∧ t.responses = s.responses ∧
            rspOut true t = if ps.length + 1 = lat (opOf p.cmd) then some (rspWord r) else none

/-- A response once valid is held steady, and nothing else changes, for as many cycles as the host keeps `rsp_ready` low; at
the first edge with `rsp_ready` it is transferred and the core is ready (R190, R192). -/
def Obligations.ResponseHeldUntilTaken : Prop :=
  ∀ (ps : List Pins) (q : Pins) (s : State),
    rspValid true s = true → (∀ p ∈ ps, p.rstN = true ∧ p.rspReady = false) → q.rstN = true → q.rspReady = true →
      clockAll ps s = .next s ∧
        ∃ (r : Response) (t : State),
          rspOut true s = some (rspWord r) ∧ clockAll (ps ++ [q]) s = .next t ∧
            t = { s with port := .idle, responses := s.responses ++ [r] } ∧
            cmdReady true t = true ∧ rspValid true t = false

/-- R194. The latency is at least 1 and depends on the opcode byte alone, with one value for all illegal opcodes: two runs
whose pins agree but for LEN, A and B, from states of any registers and any commands in flight with the same wait, show the
same `cmd_ready` and `rsp_valid` after every number of edges. -/
def Obligations.LatencyIsDataIndependent : Prop :=
  (∀ op : Byte, 1 ≤ lat op) ∧
    (∀ op op' : Byte, opcodeOf op = none → opcodeOf op' = none → lat op = lat op') ∧
    ∀ (ps qs : List Pins) (s t : State),
      List.Forall₂ sameControl ps qs → sameTiming s.port t.port →
        ∃ s' t' : State,
          clockAll ps s = .next s' ∧ clockAll qs t = .next t' ∧ sameTiming s'.port t'.port ∧
            cmdReady true s' = cmdReady true t' ∧ rspValid true s' = rspValid true t'

/-- The clocked core does what the functional one does: after any rising edges, from any state, the state with its time
left out is the fold of the host events those edges completed (R15, R191). -/
def Obligations.ClockRefinesEvents : Prop :=
  ∀ (ps : List Pins) (s : State),
    ∃ t : State, clockAll ps s = .next t ∧ applyAll (eventsOf ps s) (untimed s) = .next (untimed t)

/-- If the host keeps a presented word on the pins until it is accepted, the word accepted is the word first presented, at
whatever edge the core gets ready (R192). -/
def Obligations.PresentedWordIsAccepted : Prop :=
  ∀ (p : Pins) (ps : List Pins) (q : Pins) (s t : State),
    hostObeys (p :: (ps ++ [q])) s → p.cmdValid = true → p.rstN = true → (∀ r ∈ ps, r.rstN = true) → q.rstN = true →
      (∀ k ≤ ps.length, ∃ u : State, clockAll ((p :: ps).take k) s = .next u ∧ cmdReady true u = false) →
        clockAll (p :: ps) s = .next t → cmdReady true t = true → clock q t = accept p.cmd t
end

