-- ==== Sys2Proof/Laws/Decode.lean ====
section
/-! SUPPORT. The fields of a word built from its fields, and the opcode map both ways. -/

namespace Sys2Proof

@[simp] theorem opOf_mkWord (op len : Byte) (a b : Block128) : opOf (mkWord op len a b) = op := by
  ext i hi
  simp only [opOf, mkWord, BitVec.getElem_extractLsb', BitVec.getLsbD_append]
  simp only [show ¬ (264 + i < 128) by omega, show ¬ (264 + i - 128 < 128) by omega,
    show ¬ (264 + i - 128 - 128 < 8) by omega, if_false]
  rw [show 264 + i - 128 - 128 - 8 = i by omega]
  simp [hi]

@[simp] theorem lenOf_mkWord (op len : Byte) (a b : Block128) : lenOf (mkWord op len a b) = len := by
  ext i hi
  simp only [lenOf, mkWord, BitVec.getElem_extractLsb', BitVec.getLsbD_append]
  simp only [show ¬ (256 + i < 128) by omega, show ¬ (256 + i - 128 < 128) by omega,
    show (256 + i - 128 - 128 < 8) by omega, if_true, if_false]
  rw [show 256 + i - 128 - 128 = i by omega]
  simp [hi]

@[simp] theorem aOf_mkWord (op len : Byte) (a b : Block128) : aOf (mkWord op len a b) = a := by
  ext i hi
  simp only [aOf, mkWord, BitVec.getElem_extractLsb', BitVec.getLsbD_append]
  simp only [show ¬ (128 + i < 128) by omega, show (128 + i - 128 < 128) by omega, if_true, if_false]
  rw [show 128 + i - 128 = i by omega]
  simp [hi]

@[simp] theorem bOf_mkWord (op len : Byte) (a b : Block128) : bOf (mkWord op len a b) = b := by
  ext i hi
  simp only [bOf, mkWord, BitVec.getElem_extractLsb', BitVec.getLsbD_append]
  simp [hi]

@[simp] theorem opcodeOf_code (o : Opcode) : opcodeOf o.code = some o := by cases o <;> decide

/-- What `opcodeOf` says of a byte, once: the byte is the code of the opcode found, or it is the code of none. -/
theorem opcodeOf_cases (op : Byte) :
    (∃ o : Opcode, opcodeOf op = some o ∧ op = o.code) ∨
      (opcodeOf op = none ∧ ∀ o : Opcode, op ≠ o.code) := by
  unfold opcodeOf
  split_ifs with h1 h2 h3 h4 h5 h6 h7
  · exact .inl ⟨.gfmul, rfl, h1⟩
  · exact .inl ⟨.seth, rfl, h2⟩
  · exact .inl ⟨.init, rfl, h3⟩
  · exact .inl ⟨.setacc, rfl, h4⟩
  · exact .inl ⟨.step, rfl, h5⟩
  · exact .inl ⟨.getacc, rfl, h6⟩
  · exact .inl ⟨.verify, rfl, h7⟩
  · exact .inr ⟨rfl, fun o => by cases o <;> assumption⟩

theorem lenLegal_iff (len : Byte) : lenLegal len = true ↔ 1 ≤ len.toNat ∧ len.toNat ≤ 16 := by simp [lenLegal]

end Sys2Proof
end

