-- ==== Sys2Proof/Laws/Flags.lean ====
section
/-! SUPPORT. The small lemmas of the comparator. -/

namespace Sys2Proof.Machine

@[simp] theorem diffAfter_zero (c e : Block128) : diffAfter c e 0 = 0 := rfl

theorem diffAfter_succ (c e : Block128) (k : Nat) :
    diffAfter c e (k + 1) = diffAfter c e k ||| (byteAt c k ^^^ byteAt e k) := rfl

theorem verify_iff (c e : Block128) (n : Nat) : verify c e n = true ↔ diffAfter c e n = 0 := by simp [verify]

@[simp] theorem flagByte_true : flagByte true = 0x01 := rfl
@[simp] theorem flagByte_false : flagByte false = 0x00 := rfl

theorem byteAt_xor (a b : Block128) (k : Nat) : byteAt (a ^^^ b) k = byteAt a k ^^^ byteAt b k := by
  ext i hi; simp [byteAt]

theorem getLsbD_byteAt (b : Block128) (k i : Nat) :
    (byteAt b k).getLsbD i = (decide (i < 8) && b.getLsbD (8 * (15 - k) + i)) := by
  simp [byteAt, BitVec.getLsbD_extractLsb']

end Sys2Proof.Machine
end

