-- ==== Sys2Proof/Laws/Gf128.lean ====
section
/-! SUPPORT. The small lemmas of the multiplier: one equation per function, and what doubling does to a bit. -/

namespace Sys2Proof.Machine

@[simp] theorem mulAfter_zero (x h : Block128) : mulAfter x h 0 = ⟨ZERO, h⟩ := rfl
theorem mulAfter_succ (x h : Block128) (n : Nat) : mulAfter x h (n + 1) = mulBody x n (mulAfter x h n) := rfl

@[simp] theorem mulBody_v (x : Block128) (i : Nat) (m : MulState) : (mulBody x i m).v = dbl m.v := rfl
theorem mulBody_z (x : Block128) (i : Nat) (m : MulState) :
    (mulBody x i m).z = if pbit x i then m.z ^^^ m.v else m.z := rfl

theorem gfmul_eq (x h : Block128) : gfmul x h = (mulAfter x h 128).z := rfl

@[simp] theorem dbl_zero : dbl ZERO = ZERO := by decide

theorem getLsbD_reduction (i : Nat) :
    reduction.getLsbD i = (decide (i = 120) || decide (i = 125) || decide (i = 126) || decide (i = 127)) := by
  by_cases hi : i < 128
  · have h : ∀ j : Fin 128, reduction.getLsbD j.val =
        (decide (j.val = 120) || decide (j.val = 125) || decide (j.val = 126) || decide (j.val = 127)) := by decide
    exact h ⟨i, hi⟩
  · rw [BitVec.getLsbD_of_ge _ _ (by omega)]
    have h0 : i ≠ 120 ∧ i ≠ 125 ∧ i ≠ 126 ∧ i ≠ 127 := by omega
    simp [h0]

/-- A bit of the doubled value: the bit above it, and the bit that fell off where 0xE1 has a 1. -/
theorem getLsbD_dbl (v : Block128) (i : Nat) :
    (dbl v).getLsbD i = (v.getLsbD (i + 1) ^^ (v.getLsbD 0 && reduction.getLsbD i)) := by
  unfold dbl
  cases v.getLsbD 0 <;> simp [Nat.add_comm]

theorem pbit_xor (a b : Block128) (p : Nat) : pbit (a ^^^ b) p = (pbit a p ^^ pbit b p) := by simp [pbit]

@[simp] theorem pbit_zero (p : Nat) : pbit ZERO p = false := by simp [pbit]

end Sys2Proof.Machine
end

