-- ==== Sys2Proof/Laws/State.lean ====
section
/-! SUPPORT. One lemma per field per update of State, so that no proof unfolds a record update. -/

namespace Sys2Proof.Machine

/-! ## Registers -/

@[simp] theorem readH_eq (s : State) : readH s = s.h := rfl
@[simp] theorem readAcc_eq (s : State) : readAcc s = s.acc := rfl

@[simp] theorem writeH_h (v : Block128) (s : State) : (writeH v s).h = v := rfl
@[simp] theorem writeH_acc (v : Block128) (s : State) : (writeH v s).acc = s.acc := rfl
@[simp] theorem writeH_port (v : Block128) (s : State) : (writeH v s).port = s.port := rfl
@[simp] theorem writeH_events (v : Block128) (s : State) : (writeH v s).events = s.events := rfl
@[simp] theorem writeH_responses (v : Block128) (s : State) : (writeH v s).responses = s.responses := rfl

@[simp] theorem writeAcc_h (v : Block128) (s : State) : (writeAcc v s).h = s.h := rfl
@[simp] theorem writeAcc_acc (v : Block128) (s : State) : (writeAcc v s).acc = v := rfl
@[simp] theorem writeAcc_port (v : Block128) (s : State) : (writeAcc v s).port = s.port := rfl
@[simp] theorem writeAcc_events (v : Block128) (s : State) : (writeAcc v s).events = s.events := rfl
@[simp] theorem writeAcc_responses (v : Block128) (s : State) : (writeAcc v s).responses = s.responses := rfl

/-! ## The response port -/

@[simp] theorem answer_h (r : Response) (s : State) : (answer r s).h = s.h := rfl
@[simp] theorem answer_acc (r : Response) (s : State) : (answer r s).acc = s.acc := rfl
@[simp] theorem answer_port (r : Response) (s : State) : (answer r s).port = .inFlight 0 r := rfl
@[simp] theorem answer_events (r : Response) (s : State) : (answer r s).events = s.events := rfl
@[simp] theorem answer_responses (r : Response) (s : State) : (answer r s).responses = s.responses := rfl
@[simp] theorem answer_pending (r : Response) (s : State) : pending (answer r s) = [r] := rfl

@[simp] theorem transfer_h (s : State) : (transfer s).h = s.h := rfl
@[simp] theorem transfer_acc (s : State) : (transfer s).acc = s.acc := rfl
@[simp] theorem transfer_port (s : State) : (transfer s).port = .idle := rfl
@[simp] theorem transfer_events (s : State) : (transfer s).events = s.events := rfl
@[simp] theorem transfer_responses (s : State) : (transfer s).responses = s.responses ++ pending s := rfl
@[simp] theorem transfer_pending (s : State) : pending (transfer s) = [] := rfl

@[simp] theorem resetCore_h (s : State) : (resetCore s).h = ZERO := rfl
@[simp] theorem resetCore_acc (s : State) : (resetCore s).acc = ZERO := rfl
@[simp] theorem resetCore_port (s : State) : (resetCore s).port = .idle := rfl
@[simp] theorem resetCore_events (s : State) : (resetCore s).events = s.events := rfl
@[simp] theorem resetCore_responses (s : State) : (resetCore s).responses = s.responses := rfl
@[simp] theorem resetCore_pending (s : State) : pending (resetCore s) = [] := rfl

/-! ## What is pending depends on the port alone -/

theorem pending_idle {s : State} (h : s.port = .idle) : pending s = [] := by simp [pending, h]

theorem pending_inFlight {s : State} {n : Nat} {r : Response} (h : s.port = .inFlight n r) : pending s = [r] := by
  simp [pending, h]

theorem pending_congr {s t : State} (h : s.port = t.port) : pending s = pending t := by simp [pending, h]

/-! ## Events -/

@[simp] theorem presentWord_h (c : CmdWord) (s : State) : (presentWord c s).h = s.h := rfl
@[simp] theorem presentWord_acc (c : CmdWord) (s : State) : (presentWord c s).acc = s.acc := rfl
@[simp] theorem presentWord_port (c : CmdWord) (s : State) : (presentWord c s).port = s.port := rfl
@[simp] theorem presentWord_events (c : CmdWord) (s : State) : (presentWord c s).events = .cmd c :: s.events := rfl
@[simp] theorem presentWord_responses (c : CmdWord) (s : State) : (presentWord c s).responses = s.responses := rfl

/-! ## The clocked layer -/

@[simp] theorem delay_h (n : Nat) (s : State) : (delay n s).h = s.h := by unfold delay; split <;> rfl
@[simp] theorem delay_acc (n : Nat) (s : State) : (delay n s).acc = s.acc := by unfold delay; split <;> rfl
@[simp] theorem delay_events (n : Nat) (s : State) : (delay n s).events = s.events := by unfold delay; split <;> rfl
@[simp] theorem delay_responses (n : Nat) (s : State) : (delay n s).responses = s.responses := by
  unfold delay; split <;> rfl

@[simp] theorem delay_answer (n : Nat) (r : Response) (s : State) :
    delay n (answer r s) = { s with port := .inFlight n r } := rfl

@[simp] theorem untimed_h (s : State) : (untimed s).h = s.h := by unfold untimed; split <;> rfl
@[simp] theorem untimed_acc (s : State) : (untimed s).acc = s.acc := by unfold untimed; split <;> rfl
@[simp] theorem untimed_events (s : State) : (untimed s).events = s.events := by unfold untimed; split <;> rfl
@[simp] theorem untimed_responses (s : State) : (untimed s).responses = s.responses := by
  unfold untimed; split <;> rfl

@[simp] theorem untimed_answer (r : Response) (s : State) : untimed (answer r s) = answer r s := rfl

end Sys2Proof.Machine
end

