-- ==== Sys2Proof/Laws/Ops.lean ====
section
/-! SUPPORT. What each shared operation can do, said once: answering, rejecting, running a word, handling an event. -/

namespace Sys2Proof.Machine

theorem respond_eq (st f : Byte) (d : Block128) (s : State) : respond st f d s = .next (answer ⟨st, f, d⟩ s) := rfl

theorem reject_eq (st : Byte) (s : State) : reject st s = .next (answer ⟨st, 0x00, ZERO⟩ s) := rfl

@[simp] theorem andThen_next (s : State) (f : State → Result) : andThen (.next s) f = f s := rfl

theorem andThen_assoc (o : Result) (f g : State → Result) :
    andThen (andThen o f) g = andThen o fun s => andThen (f s) g := by cases o <;> rfl

/-- What a command can do: it answers a next state with its response ready, having written H and ACC at most. -/
theorem exec_cases (i : Instr) (s : State) :
    ∃ (r : Response) (h acc : Block128), exec i s = .next (answer r { s with h := h, acc := acc }) := by
  cases i with
  | gfmul a b => exact ⟨_, s.h, s.acc, rfl⟩
  | seth a => exact ⟨_, a, s.acc, rfl⟩
  | init => exact ⟨_, s.h, ZERO, rfl⟩
  | setacc a => exact ⟨_, s.h, a, rfl⟩
  | step a => exact ⟨_, s.h, absorb s.h s.acc a, rfl⟩
  | getacc => exact ⟨_, s.h, s.acc, rfl⟩
  | verify a b len =>
    by_cases hl : lenLegal len = true
    · exact ⟨⟨0, flagByte (verify a b len.toNat), ZERO⟩, s.h, s.acc, by simp [exec, execVerify, hl, respond_eq]⟩
    · exact ⟨⟨2, 0, ZERO⟩, s.h, s.acc, by simp [exec, execVerify, hl, reject_eq]⟩

theorem runWord_ok {c : CmdWord} {i : Instr} (h : decode c = .ok i) (s : State) : runWord c s = exec i s := by
  simp [runWord, h]

theorem runWord_error {c : CmdWord} {e : DecodeError} (h : decode c = .error e) (s : State) :
    runWord c s = reject statusIllegalOp s := by simp [runWord, h]

/-- What a word can do: the same, for a word that decodes and for one that does not. -/
theorem runWord_cases (c : CmdWord) (s : State) :
    ∃ (r : Response) (h acc : Block128), runWord c s = .next (answer r { s with h := h, acc := acc }) := by
  cases hd : decode c with
  | ok i => rw [runWord_ok hd]; exact exec_cases i s
  | error e => rw [runWord_error hd]; exact ⟨_, s.h, s.acc, rfl⟩

/-- What a host event can do. -/
theorem applyEvent_cases (e : HostEvent) (s : State) :
    (∃ (c : CmdWord) (r : Response) (h acc : Block128),
      e = .cmd c ∧ applyEvent e s = .next (answer r { transfer s with h := h, acc := acc })) ∨
      (e = .take ∧ applyEvent e s = .next (transfer s)) ∨ (e = .reset ∧ applyEvent e s = .next (resetCore s)) := by
  cases e with
  | cmd c =>
    obtain ⟨r, h, acc, hr⟩ := runWord_cases c (transfer s)
    exact .inl ⟨c, r, h, acc, rfl, hr⟩
  | take => exact .inr (.inl ⟨rfl, rfl⟩)
  | reset => exact .inr (.inr ⟨rfl, rfl⟩)

theorem applyAll_nil (s : State) : applyAll [] s = .next s := rfl

theorem applyAll_cons (e : HostEvent) (es : List HostEvent) (s : State) :
    applyAll (e :: es) s = andThen (applyEvent e s) (applyAll es) := rfl

theorem applyAll_append (es fs : List HostEvent) (s : State) :
    applyAll (es ++ fs) s = andThen (applyAll es s) (applyAll fs) := by
  induction es generalizing s with
  | nil => rfl
  | cons e es ih =>
    rw [List.cons_append, applyAll_cons, applyAll_cons, andThen_assoc]
    congr 1
    funext t
    exact ih t

theorem runWords_nil (s : State) : runWords [] s = .next (transfer s) := rfl

/-- A run of words, its first word taken off. -/
theorem runWords_cons (c : CmdWord) (cs : List CmdWord) (s : State) :
    runWords (c :: cs) s = andThen (runWord c (transfer s)) (runWords cs) := rfl

theorem runCommands_cons (i : Instr) (is : List Instr) (s : State) :
    runCommands (i :: is) s = andThen (runWord (encode i) (transfer s)) (runCommands is) := rfl

end Sys2Proof.Machine
end

