-- ==== Sys2Proof/Laws/PerInstr.lean ====
section
/-! SUPPORT. Facts per command about its syntax: the canonical word of a command has its opcode in OP and is its own
canonical form (R66, R73). -/

namespace Sys2Proof.Laws.EncodedOpcode

/-- The word of a command: its OP is the command's opcode, and its unused fields are zero. -/
def Statement (i : Instr) : Prop := opOf (encode i) = i.opcode.code ∧ canonicalWord (encode i) = encode i

theorem gfmul (a b : Block128) : Statement (.gfmul a b) := by simp [Statement, encode, Instr.opcode, canonicalWord]
theorem seth (a : Block128) : Statement (.seth a) := by simp [Statement, encode, Instr.opcode, canonicalWord]
theorem init : Statement .init := by simp [Statement, encode, Instr.opcode, canonicalWord]
theorem setacc (a : Block128) : Statement (.setacc a) := by simp [Statement, encode, Instr.opcode, canonicalWord]
theorem step (a : Block128) : Statement (.step a) := by simp [Statement, encode, Instr.opcode, canonicalWord]
theorem getacc : Statement .getacc := by simp [Statement, encode, Instr.opcode, canonicalWord]

theorem verify (a b : Block128) (len : Byte) : Statement (.verify a b len) := by
  simp [Statement, encode, Instr.opcode, canonicalWord]

end Sys2Proof.Laws.EncodedOpcode
end

