-- ==== Sys2Proof/Laws/Ports.lean ====
section
/-! SUPPORT. What one rising edge can do, said once, by the port before it. -/

namespace Sys2Proof.Machine

theorem clock_reset {p : Pins} (hp : p.rstN = false) (s : State) :
    clock p s = .next (resetCore s) := by simp [clock, hp]

theorem clock_idle {p : Pins} {s : State} (hp : p.rstN = true) (hs : s.port = .idle) (hv : p.cmdValid = false) :
    clock p s = .next s := by simp [clock, hp, hs, hv]

theorem clock_accept {p : Pins} {s : State} (hp : p.rstN = true) (hs : s.port = .idle) (hv : p.cmdValid = true) :
    clock p s = accept p.cmd s := by simp [clock, hp, hs, hv]

theorem clock_wait {p : Pins} {s : State} {n : Nat} {r : Response} (hp : p.rstN = true)
    (hs : s.port = .inFlight (n + 1) r) : clock p s = .next { s with port := .inFlight n r } := by
  simp [clock, hp, hs]

theorem clock_hold {p : Pins} {s : State} {r : Response} (hp : p.rstN = true) (hs : s.port = .inFlight 0 r)
    (hr : p.rspReady = false) : clock p s = .next s := by simp [clock, hp, hs, hr]

theorem clock_transfer {p : Pins} {s : State} {r : Response} (hp : p.rstN = true) (hs : s.port = .inFlight 0 r)
    (hr : p.rspReady = true) : clock p s = .next (transfer s) := by simp [clock, hp, hs, hr]

/-- What accepting a word does: as `runWord_cases`, with the cycles of the latency still to wait. -/
theorem accept_cases (c : CmdWord) (s : State) :
    ∃ (r : Response) (h acc : Block128),
      runWord c s = .next (answer r { s with h := h, acc := acc }) ∧
        accept c s = .next { s with h := h, acc := acc, port := .inFlight (lat (opOf c) - 1) r } := by
  obtain ⟨r, h, acc, hr⟩ := runWord_cases c s
  exact ⟨r, h, acc, hr, by simp [accept, hr]⟩

theorem clockAll_nil (s : State) : clockAll [] s = .next s := rfl

theorem clockAll_cons (p : Pins) (ps : List Pins) (s : State) :
    clockAll (p :: ps) s = andThen (clock p s) (clockAll ps) := rfl

theorem clockAll_append (ps qs : List Pins) (s : State) :
    clockAll (ps ++ qs) s = andThen (clockAll ps s) (clockAll qs) := by
  induction ps generalizing s with
  | nil => rfl
  | cons p ps ih =>
    rw [List.cons_append, clockAll_cons, clockAll_cons, andThen_assoc]
    congr 1
    funext t
    exact ih t

end Sys2Proof.Machine
end

