-- ==== Sys2Proof/Tests/Slice0.lean ====
section
/-! SUPPORT. Small tests, their expected values from 95_test_vectors.md and from the rules named, and for each statement
with hypotheses a state and operands that meet all of them (`witness_…`). -/

namespace Sys2Proof.Tests

open Sys2Proof Sys2Proof.Machine

/-- The source's subkey, data block, tampered block, and the product of the first two (95_test_vectors.md, named blocks). -/
abbrev keyH : Block128 := 0x66e94bd4ef8a2c3b884cfa59ca342b2e
abbrev blockD : Block128 := 0x0102030405060708090a0b0c0d0e0f10
abbrev blockT : Block128 := 0x010203ff05060708090a0bff0d0e0f10
abbrev hashG : Block128 := 0x9f58946a0563efa96090affe7cd35553
abbrev blockA : Block128 := 0x00112233445566778899aabbccddeeff

/-- The state of 95_test_vectors.md section 2.5: H = keyH, ACC = hashG. -/
abbrev start : State := { State.reset with h := keyH, acc := hashG }

/-- H, ACC and the response on the port after a result. -/
def seen (o : Result) : Option (Block128 × Block128 × List Response) :=
  (nextOf o).map fun t => (t.h, t.acc, pending t)

/-! ## WellFormed -/

theorem test_wf_refuses_len_zero : (Instr.verify blockA blockA 0).wf = false := by decide
theorem test_wf_refuses_len_seventeen : (Instr.verify blockA blockA 17).wf = false := by decide
theorem test_wf_accepts_len_sixteen : (Instr.verify blockA blockA 16).wf = true := by decide

/-! ## Decoding: words of 95_test_vectors.md sections 2.5 and 2.6, written out -/

/-- X14. -/
theorem test_decode_gfmul :
    decode 0x01ff0102030405060708090a0b0c0d0e0f1066e94bd4ef8a2c3b884cfa59ca342b2e#272 = .ok (.gfmul blockD keyH) := by
  decide

/-- X15. -/
theorem test_decode_seth :
    decode 0x025500112233445566778899aabbccddeeffffffffffffffffffffffffffffffffff#272 = .ok (.seth blockA) := by decide

/-- P4, command 7. -/
theorem test_decode_init :
    decode 0x03abffffffffffffffffffffffffffffffff12121212121212121212121212121212#272 = .ok .init := by decide

/-- X17. -/
theorem test_decode_setacc :
    decode 0x040000112233445566778899aabbccddeeff66e94bd4ef8a2c3b884cfa59ca342b2e#272 = .ok (.setacc blockA) := by decide

/-- X16. -/
theorem test_decode_step :
    decode 0x05100102030405060708090a0b0c0d0e0f10ffffffffffffffffffffffffffffffff#272 = .ok (.step blockD) := by decide

/-- P4, command 8. -/
theorem test_decode_getacc :
    decode 0x06000102030405060708090a0b0c0d0e0f10010203ff05060708090a0bff0d0e0f10#272 = .ok .getacc := by decide

/-- X18. -/
theorem test_decode_verify :
    decode 0x07109f58946a0563efa96090affe7cd355539f58946a0563efa96090affe7cd35553#272 =
      .ok (.verify hashG hashG 16) := by decide

/-- X3. -/
theorem test_decode_illegal :
    decode 0x090000112233445566778899aabbccddeeff00112233445566778899aabbccddeeff#272 = .error (.illegalOp 0x09) := by
  decide

/-- R70: not 34 bytes. -/
theorem test_decode_short : decodeBytes [0x03] = .error (.wrongLength 1) := by decide

/-- A5's command word as 34 bytes (R42). -/
theorem test_decode_bytes : decodeBytes (0x02 :: List.replicate 33 0x00) = .ok (.seth 0) := by decide +kernel

/-! ## The commands -/

/-- M1. -/
theorem test_gfmul_golden : seen (exec (.gfmul blockD keyH) start) = some (keyH, hashG, [⟨0, 0, hashG⟩]) := by decide

/-- M24, all ones squared. -/
theorem test_gfmul_ones : gfmul (BitVec.allOnes 128) (BitVec.allOnes 128) = 0xf402aaaaaaaaaaaaaaaaaaaaaaaaaaaa := by
  decide +kernel

/-- A1. -/
theorem test_seth : seen (exec (.seth blockA) start) = some (blockA, hashG, [⟨0, 0, 0⟩]) := by decide

/-- A2. -/
theorem test_init : seen (exec .init start) = some (keyH, 0, [⟨0, 0, 0⟩]) := by decide

/-- A3. -/
theorem test_setacc : seen (exec (.setacc blockA) start) = some (keyH, blockA, [⟨0, 0, 0⟩]) := by decide

/-- S3. -/
theorem test_step_chained :
    seen (exec (.step blockT) start) =
      some (keyH, 0xaa4f761fbf443e39700c63337b567047, [⟨0, 0, 0xaa4f761fbf443e39700c63337b567047⟩]) := by decide

/-- S10. -/
theorem test_step_gcm_case_two :
    absorb keyH ZERO 0x0388dace60b6a392f328c2b971b2fe78 = 0x5e2ec746917062882c85b0685353deb7 := by decide

/-- A4. -/
theorem test_getacc : seen (exec .getacc start) = some (keyH, hashG, [⟨0, 0, hashG⟩]) := by decide

/-- V4 and V5: the blocks differ at byte 4 only. -/
theorem test_verify_byte_four :
    seen (exec (.verify blockA 0x00112233455566778899aabbccddeeff 4) start) = some (keyH, hashG, [⟨0, 1, 0⟩]) ∧
      seen (exec (.verify blockA 0x00112233455566778899aabbccddeeff 5) start) = some (keyH, hashG, [⟨0, 0, 0⟩]) := by
  decide

/-- V19 and V20: equal blocks, illegal lengths. -/
theorem test_verify_bad_len :
    seen (exec (.verify blockA blockA 0) start) = some (keyH, hashG, [⟨2, 0, 0⟩]) ∧
      seen (exec (.verify blockA blockA 17) start) = some (keyH, hashG, [⟨2, 0, 0⟩]) := by decide

/-- R114, the rows after iterations 15, 63 and 127. -/
theorem test_multiplier_trace :
    mulAfter blockD keyH 16 = ⟨0xb5e73932868caa70c7feb8c75af34086, 0x3424bae94bd4ef8a2c3b884cfa59ca34⟩ ∧
      mulAfter blockD keyH 64 = ⟨0x188ad0dc313796926b6227395dc25d4d, 0xef692017ee375c24bae94bd4ef8a2c3b⟩ ∧
      mulAfter blockD keyH 128 = ⟨hashG, 0xc8526e5c0a72a570d9692017ee375c24⟩ := by decide

/-- M19 on bytes: all ones doubled. -/
theorem test_double_bytes : dblBytes (toBytes (BitVec.allOnes 128)) = toBytes 0x9effffffffffffffffffffffffffffff := by
  decide

/-! ## Steps, the interface, the ports -/

/-- X1: the all-zero word is rejected and changes nothing. -/
theorem test_step_all_zero_word :
    seen (step { start with events := [.cmd 0] }) = some (keyH, hashG, [⟨1, 0, 0⟩]) := by decide

/-- P5, row 1: a reset, with a response not yet taken. -/
theorem test_step_reset :
    seen (step { start with port := .inFlight 0 ⟨0, 0, hashG⟩, events := [.reset] }) = some (0, 0, []) := by decide

/-- A3's word through the interface, from reset. -/
theorem test_with_fetch_word :
    seen (step (State.reset.withFetchWord 272 0x040000112233445566778899aabbccddeeff00000000000000000000000000000000)) =
      some (0, blockA, [⟨0, 0, 0⟩]) := by decide

/-- R190: an edge with `rsp_ready` transfers a valid response. -/
theorem test_clock_transfer :
    (nextOf (clock ⟨true, false, 0, true⟩ { start with port := .inFlight 0 ⟨0, 0, hashG⟩ })).map
        (fun t => (t.port, t.responses)) = some (.idle, [⟨0, 0, hashG⟩]) := by decide

/-- R74, OK with DATA. -/
theorem test_response_word : rspWord ⟨0, 0, hashG⟩ = 0x00009f58946a0563efa96090affe7cd35553#144 := by decide

/-! ## Assembly text -/

/-- R71: blanks and a comment around, upper case digits. -/
theorem test_assemble_seth :
    parseLine
        (['\t', 'S', 'E', 'T', 'H', ' ', ' '] ++ List.replicate 30 '0' ++ ['A', 'f', ' ', ';', ',', 'x']) =
      .ok (some (.seth 0xaf)) := by decide

/-- R71: a comment alone is no command. -/
theorem test_assemble_comment : parseLine [' ', ';', 'I', 'N', 'I', 'T'] = .ok none := by decide

/-- R71: mnemonics are upper case; a block has exactly 32 digits. -/
theorem test_assemble_errors :
    parseLine ['i', 'n', 'i', 't'] = .error .unknownMnemonic ∧
      parseLine ['S', 'T', 'E', 'P', ' ', '0', '1'] = .error .badBlock ∧
      parseLine ['S', 'T', 'E', 'P'] = .error .operandCount := by decide

/-! ## Witnesses: states and operands that meet a statement's hypotheses -/

/-- IllegalOpcodeRejected: the bytes on either side of 0x01..0x07. -/
theorem witness_illegal_opcode :
    (opOf (mkWord 0x00 0 0 0)).toNat < 1 ∧ 7 < (opOf (mkWord 0x08 0 0 0)).toNat ∧ 7 < (opOf (mkWord 0xff 0 0 0)).toNat := by
  decide

/-- BadLenRejected: LEN at the edges. -/
theorem witness_bad_len :
    opOf (mkWord 0x07 0x00 0 0) = 0x07 ∧ lenOf (mkWord 0x07 0x00 0 0) = 0x00 ∧
      opOf (mkWord 0x07 0x11 0 0) = 0x07 ∧ 0x11 ≤ (lenOf (mkWord 0x07 0x11 0 0)).toNat := by decide

/-- CanonicalEncoding: a word with junk in its unused fields. -/
theorem witness_canonical_encoding : decode (mkWord 0x03 0xab blockA blockD) = .ok .init := by decide

/-- BitPositions, SingleBitOperands: both ends of the range. -/
theorem witness_bit_position : 0 < 128 ∧ 127 < 128 := by decide

/-- CommandWordFields: both ends of the ranges of its clauses. -/
theorem witness_field_bits : 0 < 8 ∧ 7 < 8 ∧ 0 < 128 ∧ 127 < 128 := by decide

/-- WordsAsBytes: both ends of the byte index of a command and of a response. -/
theorem witness_word_bytes : 0 < 34 ∧ 33 < 34 ∧ 0 < 18 ∧ 17 < 18 := by decide

/-- StepAbsorbsBlock, BlockValueFromBytes: both ends of the byte index. -/
theorem witness_byte_index : 0 < 16 ∧ 15 < 16 := by decide

/-- DoublingMatchesBytes: a block that is reduced. -/
theorem witness_reduction : (1#128 : Block128).getLsbD 0 = true := by decide

/-- NonzeroBlocksInvertible: a non-zero block, and two equal products by it. -/
theorem witness_nonzero : keyH ≠ ZERO ∧ gfmul blockD keyH = gfmul blockD keyH := ⟨by decide, rfl⟩

/-- StepSensitivity: a non-zero H, equal results, and lengths at both ends. -/
theorem witness_sensitivity :
    keyH ≠ ZERO ∧ absorb keyH ZERO blockD = absorb keyH ZERO blockD ∧ 1 ≤ 1 ∧ 1 < 16 ∧ 1 ≤ 15 ∧ 15 < 16 :=
  ⟨by decide, rfl, by decide, by decide, by decide, by decide⟩

/-- VerifyIffPrefixEqual, VerifyLaws: lengths at both ends, a shorter one within, a match to keep, and blocks that differ
behind the prefix only. -/
theorem witness_verify_length :
    (1 ≤ 1 ∧ 1 ≤ 16) ∧ (1 ≤ 16 ∧ 16 ≤ 16) ∧ (1 ≤ 1 ∧ 1 ≤ 4) ∧
      verify blockA 0x00112233455566778899aabbccddeeff 4 = true ∧
      ∀ k < 4, byteAt 0x00112233455566778899aabbccddeeff k = byteAt blockA k ∧ byteAt blockD k = byteAt blockD k := by
  decide

/-- StepRunsDecodedCommand: a word that decodes, one that does not, an idle state. -/
theorem witness_step_runs :
    decode (mkWord 0x06 0 0 0) = .ok .getacc ∧ decode 0 = .error (.illegalOp 0) ∧ start.port = .idle := by decide

/-- The same: INIT's row of the opcode table. -/
theorem witness_table_word :
    decodeTableWord 272 0x03000000000000000000000000000000000000000000000000000000000000000000 = some .init := by decide

/-- StepKeepsResponsesLegal, RegistersWrittenOnlyBy: a legal state with a response taken and one pending, and its step. -/
theorem witness_step_legal :
    State.legal { start with port := .inFlight 0 ⟨0, 0, hashG⟩, responses := [⟨2, 0, 0⟩], events := [.cmd 0] } ∧
      ∃ t, step { start with port := .inFlight 0 ⟨0, 0, hashG⟩, responses := [⟨2, 0, 0⟩], events := [.cmd 0] } = .next t :=
  ⟨by decide, _, rfl⟩

/-- ClockKeepsResponsesLegal: a legal state with a response pending, and an edge that transfers it. -/
theorem witness_clock_legal :
    State.legal { start with port := .inFlight 0 ⟨0, 1, 0⟩ } ∧
      ∃ t, clock ⟨true, false, 0, true⟩ { start with port := .inFlight 0 ⟨0, 1, 0⟩ } = .next t :=
  ⟨by decide, _, rfl⟩

/-- SubkeyShownOnlyByStep: two states with different H, and words without a STEP. -/
theorem witness_agree_but_h :
    State.agreeButH start { start with h := blockA } ∧ start.h ≠ blockA ∧
      ∀ c ∈ [mkWord 0x06 0 0 0, mkWord 0x01 0 blockD keyH], opOf c ≠ 0x05 :=
  ⟨rfl, by decide, by simp⟩

/-- RepeatedCommands: a command that is not a STEP, and each of the three that write nothing. -/
theorem witness_repeated :
    (∀ a, Instr.seth blockA ≠ .step a) ∧ (Instr.getacc = .getacc ∨ Instr.getacc = .gfmul 0 0 ∨ Instr.getacc = .verify 0 0 0) ∧
      (Instr.gfmul 0 0 = .getacc ∨ Instr.gfmul 0 0 = .gfmul 0 0 ∨ Instr.gfmul 0 0 = .verify 0 0 0) ∧
      (Instr.verify 0 0 0 = .getacc ∨ Instr.verify 0 0 0 = .gfmul 0 0 ∨ Instr.verify 0 0 0 = .verify 0 0 0) :=
  ⟨fun _ h => (nomatch h), by decide, by decide, by decide⟩

/-- RejectedRunsChangeNothing: one word of each kind of rejection. -/
theorem witness_rejected : classify 0 = .illegalOp ∧ classify (mkWord 0x07 0x11 blockA blockA) = .badLen := by decide

/-- ResponsesInOrder: a command and a response at an index. -/
theorem witness_responses_in_order :
    [mkWord 0x03 0 0 0][0]? = some (mkWord 0x03 0 0 0) ∧ [(⟨0, 0, 0⟩ : Response)][0]? = some ⟨0, 0, 0⟩ := ⟨rfl, rfl⟩

/-- Pins that present a word, with `rst_n` 1. -/
abbrev present (c : CmdWord) : Pins := ⟨true, true, c, false⟩

/-- Pins with `rst_n` 0. -/
abbrev holdReset : Pins := ⟨false, false, 0, false⟩

/-- ResetAtThePins: pins in and out of reset, and an edge that changes H. -/
theorem witness_reset_pins :
    holdReset.rstN = false ∧ (present 0).rstN = true ∧
      ∃ t, clock holdReset start = .next t ∧ (t.h ≠ start.h ∨ t.acc ≠ start.acc) :=
  ⟨rfl, rfl, _, rfl, by decide⟩

/-- ResetAbandonsCommand: a command accepted, one cycle later reset. -/
theorem witness_reset_abandons :
    start.port = .idle ∧ (present 0).rstN = true ∧ (present 0).cmdValid = true ∧
      (∀ r ∈ ([] : List Pins), r.rstN = true) ∧ HostEvent.take ∉ eventsOf [present 0] start ∧ holdReset.rstN = false := by
  refine ⟨rfl, rfl, rfl, by simp, ?_, rfl⟩
  obtain ⟨r, h, acc, -, ha⟩ := accept_cases 0 start
  have hc : clock (present 0) start = .next _ := (clock_accept rfl rfl rfl).trans ha
  have he : eventOf (present 0) start = some (.cmd 0) := rfl
  simp only [eventsOf, he, hc]
  simp

/-- AnsweredAfterLatency: no cycle after acceptance, which every latency allows. -/
theorem witness_answered :
    start.port = .idle ∧ (present 0).rstN = true ∧ (present 0).cmdValid = true ∧ (∀ q ∈ ([] : List Pins), q.rstN = true) ∧
      ([] : List Pins).length + 1 ≤ lat (opOf (present 0).cmd) :=
  ⟨rfl, rfl, rfl, by simp, by unfold lat; split <;> simp⟩

/-- ResponseHeldUntilTaken: a valid response, one cycle of waiting, then `rsp_ready`. -/
theorem witness_held :
    rspValid true { start with port := .inFlight 0 ⟨0, 0, hashG⟩ } = true ∧
      (∀ p ∈ [present 0], p.rstN = true ∧ p.rspReady = false) ∧
      (⟨true, false, 0, true⟩ : Pins).rstN = true ∧ (⟨true, false, 0, true⟩ : Pins).rspReady = true := by decide

/-- LatencyIsDataIndependent: two illegal opcodes, pins that differ in their operands, two states that differ in their
registers and in the response in flight. -/
theorem witness_same_control :
    opcodeOf 0x00 = none ∧ opcodeOf 0x08 = none ∧
      List.Forall₂ sameControl [present (mkWord 0x05 0 blockD 0)] [present (mkWord 0x05 7 blockT blockA)] ∧
      sameTiming (Port.inFlight 3 ⟨0, 0, hashG⟩) (Port.inFlight 3 ⟨2, 0, 0⟩) :=
  ⟨by decide, by decide, .cons (by decide) .nil, rfl⟩

/-- A core whose response is valid, and pins that take it and present a word. -/
abbrev answering : State := { start with port := .inFlight 0 ⟨0, 0, hashG⟩ }
abbrev takeAndPresent : Pins := ⟨true, true, 5, true⟩

/-- PresentedWordIsAccepted: a word presented while the response before it is transferred, and kept. -/
theorem witness_presented :
    hostObeys [takeAndPresent, takeAndPresent] answering ∧ takeAndPresent.cmdValid = true ∧ takeAndPresent.rstN = true ∧
      (∀ r ∈ ([] : List Pins), r.rstN = true) ∧
      (∀ k ≤ ([] : List Pins).length,
        ∃ u, clockAll ([takeAndPresent].take k) answering = .next u ∧ cmdReady true u = false) ∧
      ∃ t, clockAll [takeAndPresent] answering = .next t ∧ cmdReady true t = true := by
  refine ⟨⟨fun _ _ => ⟨rfl, rfl⟩, trivial, ?_⟩, rfl, rfl, by simp, fun k hk => ?_, _, rfl, rfl⟩
  · obtain ⟨r, h, acc, -, ha⟩ := accept_cases takeAndPresent.cmd (transfer answering)
    have hc : clock takeAndPresent (transfer answering) = .next _ := (clock_accept rfl rfl rfl).trans ha
    rw [hc]
    trivial
  · obtain rfl : k = 0 := Nat.le_zero.mp hk
    exact ⟨_, rfl, rfl⟩

end Sys2Proof.Tests
end

section
/-! PROOF. The functional core as a fold of host events: what one step does, what an event leaves unread, and the clocked
core as a refinement of it. -/

namespace Sys2Proof.Machine

/-! ## One step, by the next event -/

theorem step_noEvent (s : State) : step { s with events := [] } = .next { s with events := [] } := rfl

theorem step_event (e : HostEvent) (es : List HostEvent) (s : State) :
    step { s with events := e :: es } = applyEvent e { s with events := es } := rfl

theorem applyEvent_cmd (c : CmdWord) (s : State) : applyEvent (.cmd c) s = runWord c (transfer s) := rfl

theorem step_withFetchWord (s : State) (nbits w : Nat) :
    step (s.withFetchWord nbits w) = runWord (tableWord nbits w) (transfer s) := rfl

theorem decode_of_decodeTableWord {nbits w : Nat} {i : Instr} (h : decodeTableWord nbits w = some i) :
    decode (tableWord nbits w) = .ok i := by
  unfold decodeTableWord at h
  split at h
  · next j hj => rw [hj, Option.some.inj h]
  · exact nomatch h

theorem transfer_idle {s : State} (hs : s.port = .idle) : transfer s = s := by
  simp [transfer, pending_idle hs, ← hs]

/-- Settles O43: the step's equation for each next event, with `runWord` split by what the word decodes to. -/
theorem stepRunsDecodedCommand : Obligations.StepRunsDecodedCommand := by
  refine ⟨fun s c es i hi => ?_, fun s c es e he => ?_, fun s es => ⟨rfl, rfl, step_noEvent s⟩,
    fun s nbits w i hi => ?_, fun s hs => transfer_idle hs⟩
  · rw [step_event, applyEvent_cmd, runWord_ok hi]
  · rw [step_event, applyEvent_cmd, runWord_error he]
    rfl
  · rw [step_withFetchWord, runWord_ok (decode_of_decodeTableWord hi)]

/-! ## The events to come are not read -/

/-- A command acts on the rest of the state alike, whatever events are still to come, and keeps them. -/
theorem exec_anyEvents (i : Instr) (s : State) :
    ∃ t : State, ∀ es, exec i { s with events := es } = .next { t with events := es } := by
  cases i with
  | gfmul a b => exact ⟨answer ⟨statusOk, 0x00, gfmul a b⟩ s, fun _ => rfl⟩
  | seth a => exact ⟨answer ⟨statusOk, 0x00, ZERO⟩ (writeH a s), fun _ => rfl⟩
  | init => exact ⟨answer ⟨statusOk, 0x00, ZERO⟩ (writeAcc ZERO s), fun _ => rfl⟩
  | setacc a => exact ⟨answer ⟨statusOk, 0x00, ZERO⟩ (writeAcc a s), fun _ => rfl⟩
  | step a =>
    exact ⟨answer ⟨statusOk, 0x00, absorb s.h s.acc a⟩ (writeAcc (absorb s.h s.acc a) s), fun _ => rfl⟩
  | getacc => exact ⟨answer ⟨statusOk, 0x00, s.acc⟩ s, fun _ => rfl⟩
  | verify a b len =>
    by_cases hl : lenLegal len = true
    · refine ⟨answer ⟨statusOk, flagByte (verify a b len.toNat), ZERO⟩ s, fun _ => ?_⟩
      simp [exec, execVerify, hl, respond_eq, answer]
    · refine ⟨answer ⟨statusBadLen, 0x00, ZERO⟩ s, fun _ => ?_⟩
      simp [exec, execVerify, hl, reject_eq, answer]

theorem runWord_anyEvents (c : CmdWord) (s : State) :
    ∃ t : State, ∀ es, runWord c { s with events := es } = .next { t with events := es } := by
  cases hd : decode c with
  | ok i => simpa only [runWord_ok hd] using exec_anyEvents i s
  | error e => exact ⟨answer ⟨statusIllegalOp, 0x00, ZERO⟩ s, fun _ => by rw [runWord_error hd]; rfl⟩

theorem applyEvent_anyEvents (e : HostEvent) (s : State) :
    ∃ t : State, ∀ es, applyEvent e { s with events := es } = .next { t with events := es } := by
  cases e with
  | cmd c => exact runWord_anyEvents c (transfer s)
  | take => exact ⟨transfer s, fun _ => rfl⟩
  | reset => exact ⟨resetCore s, fun _ => rfl⟩

/-! ## A run is the fold -/

theorem coreRun_succ {s t : State} (h : step s = .next t) (k : Nat) :
    Host.Core.run core (k + 1) s = Host.Core.run core k t := by
  have hc : core.step s = .next t := h
  simp only [Host.Core.run, hc]

/-- Settles O52, by induction on the events: each step takes the event that the fold applies, and the events after it change
nothing of what it does. -/
theorem runIsFold : Obligations.RunIsFold := by
  intro es
  induction es with
  | nil => intro s; rfl
  | cons e es ih =>
    intro s
    obtain ⟨t, ht⟩ := applyEvent_anyEvents e s
    have hstep : step { s with events := e :: es } = .next { t with events := es } := ht es
    rw [applyAll_cons, ht [], andThen_next, ← ih t]
    exact coreRun_succ hstep es.length

/-! ## The state with the time left out -/

theorem untimed_idle {s : State} (hs : s.port = .idle) : untimed s = s := by simp [untimed, hs]

theorem untimed_inFlight {s : State} {n : Nat} {r : Response} (hs : s.port = .inFlight n r) :
    untimed s = { s with port := .inFlight 0 r } := by simp [untimed, hs]

@[simp] theorem pending_untimed (s : State) : pending (untimed s) = pending s := by
  cases hs : s.port with
  | idle => rw [untimed_idle hs]
  | inFlight n r => rw [untimed_inFlight hs, pending_inFlight hs]; rfl

@[simp] theorem transfer_untimed (s : State) : transfer (untimed s) = transfer s := by simp [transfer]

@[simp] theorem resetCore_untimed (s : State) : resetCore (untimed s) = resetCore s := by simp [resetCore]

/-! ## The host event an edge completes, by the port before it -/

theorem eventOf_reset {p : Pins} (hp : p.rstN = false) (s : State) : eventOf p s = some .reset := by simp [eventOf, hp]

theorem eventOf_idle {p : Pins} {s : State} (hp : p.rstN = true) (hs : s.port = .idle) (hv : p.cmdValid = false) :
    eventOf p s = none := by simp [eventOf, hp, hs, hv]

theorem eventOf_accept {p : Pins} {s : State} (hp : p.rstN = true) (hs : s.port = .idle) (hv : p.cmdValid = true) :
    eventOf p s = some (.cmd p.cmd) := by simp [eventOf, hp, hs, hv]

theorem eventOf_wait {p : Pins} {s : State} {n : Nat} {r : Response} (hp : p.rstN = true)
    (hs : s.port = .inFlight (n + 1) r) : eventOf p s = none := by simp [eventOf, hp, hs]

theorem eventOf_hold {p : Pins} {s : State} {r : Response} (hp : p.rstN = true) (hs : s.port = .inFlight 0 r)
    (hr : p.rspReady = false) : eventOf p s = none := by simp [eventOf, hp, hs, hr]

theorem eventOf_transfer {p : Pins} {s : State} {r : Response} (hp : p.rstN = true) (hs : s.port = .inFlight 0 r)
    (hr : p.rspReady = true) : eventOf p s = some .take := by simp [eventOf, hp, hs, hr]

theorem eventsOf_cons {p : Pins} {s t : State} (h : clock p s = .next t) (ps : List Pins) :
    eventsOf (p :: ps) s = (eventOf p s).toList ++ eventsOf ps t := by simp only [eventsOf, h]

/-! ## The simulation -/

theorem applyAll_singleton (e : HostEvent) (s : State) : applyAll [e] s = applyEvent e s := by
  rw [applyAll_cons]
  cases applyEvent e s <;> rfl

/-- One edge: the clocked core goes on, and its untimed state makes the step of the event the edge completes, or none. -/
theorem clock_simulates (p : Pins) (s : State) :
    ∃ t : State, clock p s = .next t ∧ applyAll (eventOf p s).toList (untimed s) = .next (untimed t) := by
  cases hp : p.rstN with
  | false =>
    refine ⟨resetCore s, clock_reset hp s, ?_⟩
    rw [eventOf_reset hp, Option.toList_some, applyAll_singleton, untimed_idle (resetCore_port s), applyEvent,
      resetCore_untimed]
  | true =>
    cases hs : s.port with
    | idle =>
      cases hv : p.cmdValid with
      | false => exact ⟨s, clock_idle hp hs hv, by rw [eventOf_idle hp hs hv]; rfl⟩
      | true =>
        obtain ⟨r, h, acc, hrun, hacc⟩ := accept_cases p.cmd s
        refine ⟨_, (clock_accept hp hs hv).trans hacc, ?_⟩
        rw [eventOf_accept hp hs hv, Option.toList_some, applyAll_singleton, applyEvent_cmd, transfer_untimed,
          transfer_idle hs, hrun]
        rfl
    | inFlight n r =>
      cases n with
      | succ n =>
        refine ⟨_, clock_wait hp hs, ?_⟩
        rw [eventOf_wait hp hs, untimed_inFlight hs]
        rfl
      | zero =>
        cases hr : p.rspReady with
        | false => exact ⟨s, clock_hold hp hs hr, by rw [eventOf_hold hp hs hr]; rfl⟩
        | true =>
          refine ⟨transfer s, clock_transfer hp hs hr, ?_⟩
          rw [eventOf_transfer hp hs hr, Option.toList_some, applyAll_singleton, untimed_idle (transfer_port s),
            applyEvent, transfer_untimed]

/-- Settles O59, by induction on the edges: `clock_simulates` for the first, the fold over the events of the rest. -/
theorem clockRefinesEvents : Obligations.ClockRefinesEvents := by
  intro ps
  induction ps with
  | nil => exact fun s => ⟨s, rfl, rfl⟩
  | cons p ps ih =>
    intro s
    obtain ⟨t, hclock, hevent⟩ := clock_simulates p s
    obtain ⟨u, hrest, hevents⟩ := ih t
    refine ⟨u, ?_, ?_⟩
    · rw [clockAll_cons, hclock, andThen_next, hrest]
    · rw [eventsOf_cons hclock, applyAll_append, hevent, andThen_next, hevents]

end Sys2Proof.Machine
end

section
/-! PROOF. Blocks as positional numbers: the digits of a number in a base, most significant first, and the 16 bytes, the 32
hexadecimal digits and the bits of a block as such digits (R9, R10). -/

namespace Sys2Proof.Machine

/-! ## Digits, most significant first -/

/-- The lowest `n` digits of `x` in a base, most significant first. -/
def digitList (base n x : Nat) : List Nat := (List.range n).map fun k => x / base ^ (n - 1 - k) % base

/-- The number that digits write after `acc`, most significant first. -/
def digitsNumber (base acc : Nat) (ds : List Nat) : Nat := ds.foldl (fun a d => a * base + d) acc

theorem digitList_succ (base n x : Nat) :
    digitList base (n + 1) x = x / base ^ n % base :: digitList base n x := by
  simp only [digitList, List.range_succ_eq_map, List.map_cons, List.map_map]
  congr 1
  refine List.map_congr_left fun k _ => ?_
  rw [Function.comp_apply, show n + 1 - 1 - (k + 1) = n - 1 - k by omega]

@[simp] theorem digitsNumber_nil (base acc : Nat) : digitsNumber base acc [] = acc := rfl

@[simp] theorem digitsNumber_cons (base acc d : Nat) (ds : List Nat) :
    digitsNumber base acc (d :: ds) = digitsNumber base (acc * base + d) ds := rfl

theorem digitsNumber_digitList (base n x acc : Nat) :
    digitsNumber base acc (digitList base n x) = acc * base ^ n + x % base ^ n := by
  induction n generalizing acc with
  | zero => simp [digitList, Nat.mod_one]
  | succ n ih =>
    rw [digitList_succ, digitsNumber_cons, ih, Nat.mod_pow_succ]
    ring

/-- The weighted sum of the digits. -/
theorem sum_digits (base n x : Nat) :
    ((List.range n).map fun k => x / base ^ (n - 1 - k) % base * base ^ (n - 1 - k)).sum = x % base ^ n := by
  induction n with
  | zero => simp [Nat.mod_one]
  | succ n ih =>
    rw [List.range_succ_eq_map, List.map_cons, List.map_map, List.sum_cons, Nat.mod_pow_succ, ← ih]
    simp [Function.comp_def, Nat.sub_sub, Nat.add_comm, Nat.mul_comm]

theorem digitsNumber_div_pow {base : Nat} {ds : List Nat} (hds : ∀ d ∈ ds, d < base) (acc : Nat) :
    digitsNumber base acc ds / base ^ ds.length = acc := by
  induction ds generalizing acc with
  | nil => simp
  | cons d ds ih =>
    obtain ⟨hd, hds⟩ := List.forall_mem_cons.mp hds
    rw [digitsNumber_cons, List.length_cons, Nat.pow_succ, ← Nat.div_div_eq_div_mul, ih hds, Nat.mul_comm,
      Nat.mul_add_div (by omega), Nat.div_eq_of_lt hd, Nat.add_zero]

theorem digitsNumber_lt {base : Nat} {ds : List Nat} (hds : ∀ d ∈ ds, d < base) (hbase : 0 < base) :
    digitsNumber base 0 ds < base ^ ds.length :=
  (Nat.div_eq_zero_iff_lt (Nat.pow_pos hbase)).mp (digitsNumber_div_pow hds 0)

/-- Reading digits and writing them again. -/
theorem digitList_digitsNumber {base : Nat} {ds : List Nat} (hds : ∀ d ∈ ds, d < base) (acc : Nat) :
    digitList base ds.length (digitsNumber base acc ds) = ds := by
  induction ds generalizing acc with
  | nil => rfl
  | cons d ds ih =>
    obtain ⟨hd, hds⟩ := List.forall_mem_cons.mp hds
    rw [List.length_cons, digitList_succ, digitsNumber_cons, ih hds, digitsNumber_div_pow hds,
      Nat.mul_add_mod_of_lt hd]

/-! ## The bytes of a block -/

theorem toNat_byteAt (b : Block128) (k : Nat) : (byteAt b k).toNat = b.toNat / 256 ^ (15 - k) % 256 := by
  rw [byteAt, BitVec.extractLsb'_toNat, Nat.shiftRight_eq_div_pow, Nat.pow_mul]

theorem toList_toBytes (b : Block128) : (toBytes b).toList = (List.range 16).map (byteAt b) :=
  List.ext_getElem (by simp) fun _ _ _ => by simp [toBytes]

theorem map_toNat_toBytes (b : Block128) : (toBytes b).toList.map BitVec.toNat = digitList 256 16 b.toNat := by
  simp [toList_toBytes, digitList, Function.comp_def, toNat_byteAt]

theorem bytesValue_eq (l : List Byte) : bytesValue l = digitsNumber 256 0 (l.map BitVec.toNat) := by
  simp [bytesValue, digitsNumber, List.foldl_map]

theorem ofBytes_eq (v : Vector Byte 16) : ofBytes v = BitVec.ofNat 128 (bytesValue v.toList) := rfl

theorem bytes_lt (l : List Byte) : ∀ d ∈ l.map BitVec.toNat, d < 256 := by
  intro d hd
  obtain ⟨x, -, rfl⟩ := List.mem_map.mp hd
  exact x.isLt

theorem toNat_ofBytes (v : Vector Byte 16) : (ofBytes v).toNat = digitsNumber 256 0 (v.toList.map BitVec.toNat) := by
  have hlt := digitsNumber_lt (bytes_lt v.toList) (by decide)
  rw [List.length_map, Vector.length_toList] at hlt
  rw [ofBytes_eq, bytesValue_eq, BitVec.toNat_ofNat]
  exact Nat.mod_eq_of_lt hlt

@[simp] theorem ofBytes_toBytes (b : Block128) : ofBytes (toBytes b) = b := by
  apply BitVec.eq_of_toNat_eq
  rw [toNat_ofBytes, map_toNat_toBytes, digitsNumber_digitList, Nat.zero_mul, Nat.zero_add]
  exact Nat.mod_eq_of_lt b.isLt

@[simp] theorem toBytes_ofBytes (v : Vector Byte 16) : toBytes (ofBytes v) = v := by
  have hdigits : (toBytes (ofBytes v)).toList.map BitVec.toNat = v.toList.map BitVec.toNat := by
    have h := digitList_digitsNumber (bytes_lt v.toList) 0
    rw [List.length_map, Vector.length_toList] at h
    rw [map_toNat_toBytes, toNat_ofBytes, h]
  exact Vector.toList_inj.mp (List.map_injective_iff.mpr (fun _ _ => BitVec.eq_of_toNat_eq) hdigits)

/-! ## The hexadecimal digits of a block -/

theorem hexDigit_digitChar : ∀ d < 16, hexDigit (digitChar d) = some d := by decide

theorem showBlock_eq (b : Block128) : showBlock b = (digitList 16 32 b.toNat).map digitChar := by
  simp [showBlock, digitList]

@[simp] theorem length_showBlock (b : Block128) : (showBlock b).length = 32 := by simp [showBlock]

/-- Reading the characters that stand for digits gives the number the digits write. -/
theorem digitsValue_map {base : Nat} {digit : Char → Option Nat} {char : Nat → Char} {ds : List Nat}
    (hds : ∀ d ∈ ds, digit (char d) = some d) (acc : Nat) :
    digitsValue base digit acc (ds.map char) = some (digitsNumber base acc ds) := by
  induction ds generalizing acc with
  | nil => rfl
  | cons d ds ih =>
    obtain ⟨hd, hds⟩ := List.forall_mem_cons.mp hds
    rw [List.map_cons, digitsValue, hd, digitsNumber_cons, ← ih hds]

theorem digitsValue_showBlock (b : Block128) : digitsValue 16 hexDigit 0 (showBlock b) = some b.toNat := by
  have hds : ∀ d ∈ digitList 16 32 b.toNat, hexDigit (digitChar d) = some d := by
    intro d hd
    obtain ⟨k, -, rfl⟩ := List.mem_map.mp hd
    exact hexDigit_digitChar _ (Nat.mod_lt _ (by decide))
  rw [showBlock_eq, digitsValue_map hds, digitsNumber_digitList, Nat.zero_mul, Nat.zero_add]
  exact congrArg some (Nat.mod_eq_of_lt b.isLt)

@[simp] theorem parseBlock_showBlock (b : Block128) : parseBlock (showBlock b) = .ok b := by
  simp [parseBlock, digitsValue_showBlock]

/-! ## The obligations -/

/-- Settles O23: bytes and hexadecimal digits are the base 256 and the base 16 digits of the value. -/
theorem blockValueFromBytes : Obligations.BlockValueFromBytes := by
  refine ⟨fun b => ⟨?_, fun k _ => ?_, ofBytes_toBytes b, parseBlock_showBlock b, digitsValue_showBlock b⟩,
    toBytes_ofBytes⟩
  · have hsum := sum_digits 256 16 b.toNat
    have hmod : b.toNat % 256 ^ 16 = b.toNat := Nat.mod_eq_of_lt b.isLt
    simpa only [toNat_byteAt, Nat.pow_mul, hmod] using hsum.symm
  · rw [toNat_byteAt, Nat.shiftRight_eq_div_pow, Nat.pow_mul]

/-- Settles O24: bit `7 - p % 8` of byte `p / 8` has weight `8 * (15 - p / 8) + (7 - p % 8) = 127 - p`. -/
theorem bitPositions : Obligations.BitPositions := by
  intro b p hp
  have hweight : 8 * (15 - p / 8) + (7 - p % 8) = 127 - p := by omega
  have hbit : 7 - p % 8 < 8 := by omega
  refine ⟨?_, rfl⟩
  rw [getLsbD_byteAt, hweight, decide_eq_true hbit, Bool.true_and, pbit]

end Sys2Proof.Machine
end

section
/-! SUPPORT. The decoder by the opcode of a word, and the equation of `exec` for each command. -/

namespace Sys2Proof.Machine

/-! ## Decoding by the opcode byte -/

/-- The fields of a word read as the operands of the command with the opcode given (R66). -/
def readAs (c : CmdWord) : Opcode → Instr
  | .gfmul => .gfmul (aOf c) (bOf c)
  | .seth => .seth (aOf c)
  | .init => .init
  | .setacc => .setacc (aOf c)
  | .step => .step (aOf c)
  | .getacc => .getacc
  | .verify => .verify (aOf c) (bOf c) (lenOf c)

@[simp] theorem opcode_readAs (c : CmdWord) (o : Opcode) : (readAs c o).opcode = o := by cases o <;> rfl

theorem decode_of_opcode {c : CmdWord} {o : Opcode} (ho : opcodeOf (opOf c) = some o) :
    decode c = .ok (readAs c o) := by
  cases o <;> simp only [decode, ho, readAs]

theorem decode_of_noOpcode {c : CmdWord} (ho : opcodeOf (opOf c) = none) :
    decode c = .error (.illegalOp (opOf c)) := by simp only [decode, ho]

/-- What the decoder can answer: the command whose code stands in OP, or an error where OP is the code of none. -/
theorem decode_cases (c : CmdWord) :
    (∃ o : Opcode, opOf c = o.code ∧ decode c = .ok (readAs c o)) ∨
      ((∀ o : Opcode, opOf c ≠ o.code) ∧ decode c = .error (.illegalOp (opOf c))) := by
  obtain ⟨o, ho, hop⟩ | ⟨ho, hop⟩ := opcodeOf_cases (opOf c)
  · exact .inl ⟨o, hop, decode_of_opcode ho⟩
  · exact .inr ⟨hop, decode_of_noOpcode ho⟩

theorem opOf_of_decode {c : CmdWord} {i : Instr} (hd : decode c = .ok i) : opOf c = i.opcode.code := by
  obtain ⟨o, hop, ho⟩ | ⟨-, he⟩ := decode_cases c
  · cases ho.symm.trans hd
    rw [hop, opcode_readAs]
  · exact nomatch he.symm.trans hd

@[simp] theorem decode_encode (i : Instr) : decode (encode i) = .ok i := by
  cases i <;> simp [encode, decode]

@[simp] theorem runWord_encode (i : Instr) (s : State) : runWord (encode i) s = exec i s :=
  runWord_ok (decode_encode i) s

/-- A run of commands, its first command taken off. -/
theorem runCommands_cons_exec (i : Instr) (is : List Instr) (s : State) :
    runCommands (i :: is) s = andThen (exec i (transfer s)) (runCommands is) := by
  rw [runCommands_cons, runWord_encode]

/-! ## The commands -/

theorem exec_gfmul (a b : Block128) (s : State) :
    exec (.gfmul a b) s = .next (answer ⟨statusOk, 0x00, gfmul a b⟩ s) := rfl

theorem exec_seth (a : Block128) (s : State) :
    exec (.seth a) s = .next (answer ⟨statusOk, 0x00, ZERO⟩ (writeH a s)) := rfl

theorem exec_init (s : State) : exec .init s = .next (answer ⟨statusOk, 0x00, ZERO⟩ (writeAcc ZERO s)) := rfl

theorem exec_setacc (a : Block128) (s : State) :
    exec (.setacc a) s = .next (answer ⟨statusOk, 0x00, ZERO⟩ (writeAcc a s)) := rfl

theorem exec_step (a : Block128) (s : State) :
    exec (.step a) s =
      .next (answer ⟨statusOk, 0x00, absorb s.h s.acc a⟩ (writeAcc (absorb s.h s.acc a) s)) := by
  simp only [exec, execStep, respond_eq, readH_eq, readAcc_eq, writeAcc_acc]

theorem exec_getacc (s : State) : exec .getacc s = .next (answer ⟨statusOk, 0x00, s.acc⟩ s) := rfl

/-- The response of a VERIFY: its operands alone decide it (R134). -/
def verifyResponse (a b : Block128) (len : Byte) : Response :=
  if lenLegal len then ⟨statusOk, flagByte (verify a b len.toNat), ZERO⟩ else ⟨statusBadLen, 0x00, ZERO⟩

theorem exec_verify (a b : Block128) (len : Byte) (s : State) :
    exec (.verify a b len) s = .next (answer (verifyResponse a b len) s) := by
  cases hl : lenLegal len <;> simp [exec, execVerify, verifyResponse, hl, respond_eq, reject_eq]

end Sys2Proof.Machine
end

section
/-! PROOF. The registers (10_state.md): what each word and each step writes into H and ACC, that no command but STEP reads
H, and the reset state. -/

namespace Sys2Proof.Machine

/-! ## What a command writes -/

/-- H after a command (R21). -/
def subkeyAfter (i : Instr) (s : State) : Block128 :=
  match i with
  | .seth a => a
  | _ => s.h

/-- ACC after a command (R22). -/
def accAfter (i : Instr) (s : State) : Block128 :=
  match i with
  | .init => ZERO
  | .setacc a => a
  | .step a => absorb s.h s.acc a
  | _ => s.acc

theorem exec_registers (i : Instr) (s : State) :
    ∃ r : Response, exec i s = .next (answer r { s with h := subkeyAfter i s, acc := accAfter i s }) := by
  cases i with
  | gfmul a b => exact ⟨_, exec_gfmul a b s⟩
  | seth a => exact ⟨_, exec_seth a s⟩
  | init => exact ⟨_, exec_init s⟩
  | setacc a => exact ⟨_, exec_setacc a s⟩
  | step a => exact ⟨_, exec_step a s⟩
  | getacc => exact ⟨_, exec_getacc s⟩
  | verify a b len => exact ⟨_, exec_verify a b len s⟩

theorem subkeyAfter_readAs {c : CmdWord} {o : Opcode} (hop : opOf c = o.code) (s : State) :
    subkeyAfter (readAs c o) s = if opOf c = 0x02 then aOf c else s.h := by
  cases o <;> simp [hop, Opcode.code, readAs, subkeyAfter]

theorem accAfter_readAs {c : CmdWord} {o : Opcode} (hop : opOf c = o.code) (s : State) :
    accAfter (readAs c o) s =
      if opOf c = 0x03 then ZERO
      else if opOf c = 0x04 then aOf c
      else if opOf c = 0x05 then gfmul (s.acc ^^^ aOf c) s.h
      else s.acc := by
  cases o <;> simp [hop, Opcode.code, readAs, accAfter, absorb]

/-- SETH and SETACC reach every pair of registers from every state (R33). -/
theorem runCommands_seth_setacc (h a : Block128) (s : State) :
    ∃ t : State, runCommands [.seth h, .setacc a] s = .next t ∧ t.h = h ∧ t.acc = a := by
  rw [runCommands_cons_exec, exec_seth, andThen_next, runCommands_cons_exec, exec_setacc, andThen_next]
  exact ⟨_, rfl, rfl, rfl⟩

/-- Settles O13: a word that decodes writes what its command writes (`exec_registers`), one that does not decode writes
nothing. -/
theorem registersAfterEveryWord : Obligations.RegistersAfterEveryWord := by
  refine ⟨fun c s => ?_, fun s h a => runCommands_seth_setacc h a s⟩
  obtain ⟨o, hop, hd⟩ | ⟨hop, hd⟩ := decode_cases c
  · obtain ⟨r, hr⟩ := exec_registers (readAs c o) s
    exact ⟨_, (runWord_ok hd s).trans hr, subkeyAfter_readAs hop s, accAfter_readAs hop s, rfl, rfl⟩
  · refine ⟨_, runWord_error hd s, (if_neg (hop .seth)).symm, ?_, rfl, rfl⟩
    exact ((if_neg (hop .init)).trans ((if_neg (hop .setacc)).trans (if_neg (hop .step)))).symm

/-! ## What a step writes -/

/-- What a step can do, by the host's next event. -/
theorem step_cases {s t : State} (h : step s = .next t) :
    (s.events = [] ∧ t = s) ∨
      (∃ c es, s.events = .cmd c :: es ∧ runWord c (transfer { s with events := es }) = .next t) ∨
      (∃ es, s.events = .take :: es ∧ t = transfer { s with events := es }) ∨
      ∃ es, s.events = .reset :: es ∧ t = resetCore { s with events := es } := by
  simp only [step, stepEvent] at h
  split at h
  next hs => exact .inl ⟨hs, (Host.Outcome.next.inj h).symm⟩
  next e es hs =>
    cases e with
    | cmd c => exact .inr (.inl ⟨c, es, hs, h⟩)
    | take => exact .inr (.inr (.inl ⟨es, hs, (Host.Outcome.next.inj h).symm⟩))
    | reset => exact .inr (.inr (.inr ⟨es, hs, (Host.Outcome.next.inj h).symm⟩))

/-- Settles O48: of the events only a word and reset write a register, and a word writes what `registersAfterEveryWord`
says. -/
theorem registersWrittenOnlyBy : Obligations.RegistersWrittenOnlyBy := by
  intro s t hstep
  obtain ⟨-, rfl⟩ | ⟨c, es, hs, hrun⟩ | ⟨es, -, rfl⟩ | ⟨es, hs, rfl⟩ := step_cases hstep
  · exact ⟨.inl rfl, .inl rfl⟩
  · obtain ⟨u, hu, hh, hacc, -⟩ := registersAfterEveryWord.1 c (transfer { s with events := es })
    obtain rfl := Host.Outcome.next.inj (hu.symm.trans hrun)
    constructor
    · split_ifs at hh with hop
      · exact .inr (.inl ⟨c, es, hs, hop, hh⟩)
      · exact .inl hh
    · split_ifs at hacc with hinit hsetacc hstepOp
      · exact .inr (.inl ⟨c, es, hs, hinit, hacc⟩)
      · exact .inr (.inr (.inl ⟨c, es, hs, hsetacc, hacc⟩))
      · exact .inr (.inr (.inr (.inl ⟨c, es, hs, hstepOp, hacc⟩)))
      · exact .inl hacc
  · exact ⟨.inl rfl, .inl rfl⟩
  · exact ⟨.inr (.inr ⟨es, hs, rfl⟩), .inr (.inr (.inr (.inr ⟨es, hs, rfl⟩)))⟩

/-! ## States that differ in H at most: every operation but a STEP keeps them so -/

section AgreeButH

variable {s t : State}

theorem agreeButH_acc (hst : s.agreeButH t) : s.acc = t.acc := (congrArg State.acc hst :)

theorem agreeButH_responses (hst : s.agreeButH t) : s.responses = t.responses := (congrArg State.responses hst :)

theorem agreeButH_writeH (hst : s.agreeButH t) (v : Block128) : (writeH v s).agreeButH (writeH v t) :=
  (congrArg (writeH v) hst :)

theorem agreeButH_writeAcc (hst : s.agreeButH t) (v : Block128) : (writeAcc v s).agreeButH (writeAcc v t) :=
  (congrArg (writeAcc v) hst :)

theorem agreeButH_answer (hst : s.agreeButH t) (r : Response) : (answer r s).agreeButH (answer r t) :=
  (congrArg (answer r) hst :)

theorem agreeButH_transfer (hst : s.agreeButH t) : (transfer s).agreeButH (transfer t) := (congrArg transfer hst :)

/-- Two operations both go on, to states that differ in H at most. -/
def NextAgreeButH (o p : Result) : Prop := ∃ s t : State, o = .next s ∧ p = .next t ∧ s.agreeButH t

theorem nextAgreeButH_andThen {o p : Result} {f : State → Result} (hop : NextAgreeButH o p)
    (hf : ∀ s t : State, s.agreeButH t → NextAgreeButH (f s) (f t)) :
    NextAgreeButH (andThen o f) (andThen p f) := by
  obtain ⟨s, t, rfl, rfl, hst⟩ := hop
  exact hf s t hst

theorem exec_agreeButH {i : Instr} (hi : ∀ a, i ≠ .step a) (hst : s.agreeButH t) :
    NextAgreeButH (exec i s) (exec i t) := by
  cases i with
  | gfmul a b => exact ⟨_, _, exec_gfmul a b s, exec_gfmul a b t, agreeButH_answer hst _⟩
  | seth a => exact ⟨_, _, exec_seth a s, exec_seth a t, agreeButH_answer (agreeButH_writeH hst a) _⟩
  | init => exact ⟨_, _, exec_init s, exec_init t, agreeButH_answer (agreeButH_writeAcc hst ZERO) _⟩
  | setacc a => exact ⟨_, _, exec_setacc a s, exec_setacc a t, agreeButH_answer (agreeButH_writeAcc hst a) _⟩
  | step a => exact absurd rfl (hi a)
  | getacc =>
    refine ⟨_, _, exec_getacc s, exec_getacc t, ?_⟩
    rw [agreeButH_acc hst]
    exact agreeButH_answer hst _
  | verify a b len => exact ⟨_, _, exec_verify a b len s, exec_verify a b len t, agreeButH_answer hst _⟩

theorem runWord_agreeButH {c : CmdWord} (hc : opOf c ≠ 0x05) (hst : s.agreeButH t) :
    NextAgreeButH (runWord c s) (runWord c t) := by
  cases hd : decode c with
  | ok i =>
    have hi : ∀ a, i ≠ .step a := by
      rintro a rfl
      exact hc (opOf_of_decode hd)
    rw [runWord_ok hd, runWord_ok hd]
    exact exec_agreeButH hi hst
  | error e => exact ⟨_, _, runWord_error hd s, runWord_error hd t, agreeButH_answer hst _⟩

theorem runWords_agreeButH {cs : List CmdWord} (hcs : ∀ c ∈ cs, opOf c ≠ 0x05) (hst : s.agreeButH t) :
    NextAgreeButH (runWords cs s) (runWords cs t) := by
  induction cs generalizing s t with
  | nil => exact ⟨_, _, runWords_nil s, runWords_nil t, agreeButH_transfer hst⟩
  | cons c cs ih =>
    obtain ⟨hc, hcs⟩ := List.forall_mem_cons.mp hcs
    rw [runWords_cons, runWords_cons]
    exact nextAgreeButH_andThen (runWord_agreeButH hc (agreeButH_transfer hst)) fun _ _ => ih hcs

end AgreeButH

/-- Settles O49: the relation "differ in H at most" holds along the two runs, by induction on the words
(`runWords_agreeButH`), and related states have the same responses and the same ACC. -/
theorem subkeyShownOnlyByStep : Obligations.SubkeyShownOnlyByStep := by
  intro cs s t hst hcs
  obtain ⟨s', t', hs', ht', hst'⟩ := runWords_agreeButH hcs hst
  exact ⟨s', t', hs', ht', agreeButH_responses hst', agreeButH_acc hst'⟩

/-! ## The reset state -/

/-- Under the zero subkey both working values stay ZERO, whatever block is scanned. -/
theorem mulAfter_zero_right (x : Block128) (n : Nat) : mulAfter x ZERO n = ⟨ZERO, ZERO⟩ := by
  induction n with
  | zero => rfl
  | succ n ih => rw [mulAfter_succ, ih, mulBody, dbl_zero, BitVec.xor_self, ite_self]

@[simp] theorem gfmul_zero_right (x : Block128) : gfmul x ZERO = ZERO := by rw [gfmul_eq, mulAfter_zero_right]

@[simp] theorem absorb_zero_subkey (acc d : Block128) : absorb ZERO acc d = ZERO := gfmul_zero_right _

theorem exec_step_reset (d : Block128) :
    exec (.step d) State.reset = .next { State.reset with port := .inFlight 0 ⟨0x00, 0x00, ZERO⟩ } := by
  have habsorb : absorb State.reset.h State.reset.acc d = ZERO := absorb_zero_subkey _ d
  rw [exec_step, habsorb]
  rfl

/-- Settles O42: the fields of `State.reset`, and the product with the zero subkey. -/
theorem resetState : Obligations.ResetState := ⟨rfl, rfl, rfl, rfl, rfl, rfl, exec_step_reset⟩

/-- Settles O47: no response is pending in `State.reset` and none has been taken. -/
theorem resetResponsesLegal : Obligations.ResetResponsesLegal := by
  have hnone : State.reset.responses ++ pending State.reset = [] := rfl
  intro r hr
  rw [hnone] at hr
  exact absurd hr List.not_mem_nil

end Sys2Proof.Machine
end

section
/-! PROOF. Words as bytes (R42): the bytes of a bit vector, most significant first, of a vector built by `++`, and their
value; then the command word and the response word. -/

namespace Sys2Proof.Machine

/-! ## The bytes of a bit vector -/

/-- The lowest `n` bytes of a word of any width, most significant first. -/
def bytesOf {w : Nat} (n : Nat) (x : BitVec w) : List Byte :=
  (List.range n).map fun j => x.extractLsb' (8 * (n - 1 - j)) 8

theorem wordBytes_eq (c : CmdWord) : wordBytes c = bytesOf 34 c :=
  List.map_congr_left fun j _ => by rw [show 264 - 8 * j = 8 * (34 - 1 - j) by omega]

theorem rspBytes_eq (w : RspWord) : rspBytes w = bytesOf 18 w :=
  List.map_congr_left fun j _ => by rw [show 136 - 8 * j = 8 * (18 - 1 - j) by omega]

theorem bytesOf_block (b : Block128) : bytesOf 16 b = (toBytes b).toList := (toList_toBytes b).symm

theorem bytesOf_byte (x : Byte) : bytesOf 1 x = [x] := congrArg (· :: []) BitVec.extractLsb'_eq_self

/-- The bytes of a vector that ends in `n` whole bytes: those of its upper part, then those of its lower part. -/
theorem bytesOf_append {v w n : Nat} (hw : w = 8 * n) (m : Nat) (x : BitVec v) (y : BitVec w) :
    bytesOf (m + n) (x ++ y) = bytesOf m x ++ bytesOf n y := by
  simp only [bytesOf, List.range_add, List.map_append, List.map_map]
  congr 1
  · refine List.map_congr_left fun j hj => ?_
    have hjm : j < m := List.mem_range.mp hj
    rw [BitVec.extractLsb'_append_eq_of_le (by omega), show 8 * (m + n - 1 - j) - w = 8 * (m - 1 - j) by omega]
  · refine List.map_congr_left fun j hj => ?_
    have hjn : j < n := List.mem_range.mp hj
    rw [Function.comp_apply, show m + n - 1 - (m + j) = n - 1 - j by omega,
      BitVec.extractLsb'_append_eq_of_add_le (by omega)]

theorem map_toNat_bytesOf {w : Nat} (n : Nat) (x : BitVec w) :
    (bytesOf n x).map BitVec.toNat = digitList 256 n x.toNat := by
  simp [bytesOf, digitList, Function.comp_def, Nat.shiftRight_eq_div_pow, Nat.pow_mul]

theorem bytesValue_bytesOf {w : Nat} (n : Nat) (x : BitVec w) : bytesValue (bytesOf n x) = x.toNat % 256 ^ n := by
  rw [bytesValue_eq, map_toNat_bytesOf, digitsNumber_digitList, Nat.zero_mul, Nat.zero_add]

/-- A vector of whole bytes is read back from its bytes. -/
theorem ofNat_bytesValue_bytesOf {w n : Nat} (hw : w = 8 * n) (x : BitVec w) :
    BitVec.ofNat w (bytesValue (bytesOf n x)) = x := by
  have hpow : 256 ^ n = 2 ^ w := by rw [hw, Nat.pow_mul]
  rw [bytesValue_bytesOf, hpow, Nat.mod_eq_of_lt x.isLt, BitVec.ofNat_toNat, BitVec.setWidth_eq]

/-! ## Command words -/

theorem wordBytes_mkWord (op len : Byte) (a b : Block128) :
    wordBytes (mkWord op len a b) = op :: len :: ((toBytes a).toList ++ (toBytes b).toList) := by
  rw [wordBytes_eq, mkWord, bytesOf_append (n := 16) rfl 18, bytesOf_append (n := 16) rfl 2,
    bytesOf_append (n := 1) rfl 1, bytesOf_byte, bytesOf_byte, bytesOf_block, bytesOf_block, List.append_assoc]
  rfl

theorem getElem?_wordBytes (c : CmdWord) {j : Nat} (hj : j < 34) :
    (wordBytes c)[j]? = some (c.extractLsb' (272 - 8 - 8 * j) 8) := by simp [wordBytes, hj]

theorem decodeBytes_wordBytes (c : CmdWord) : decodeBytes (wordBytes c) = decode c := by
  have hlength : (wordBytes c).length = 34 := by simp [wordBytes]
  rw [decodeBytes, if_pos hlength, wordBytes_eq, ofNat_bytesValue_bytesOf (w := 272) (n := 34) rfl]

/-! ## Response words -/

theorem rspBytes_rspWord (r : Response) :
    rspBytes (rspWord r) = r.status :: r.flag :: (toBytes r.data).toList := by
  rw [rspBytes_eq, rspWord, bytesOf_append (n := 16) rfl 2, bytesOf_append (n := 1) rfl 1, bytesOf_byte, bytesOf_byte,
    bytesOf_block]
  rfl

theorem status_of_rspWord (r : Response) : (rspWord r).extractLsb' 136 8 = r.status := by
  rw [rspWord, BitVec.extractLsb'_append_eq_of_le (by decide), BitVec.extractLsb'_append_eq_of_le (by decide)]
  exact BitVec.extractLsb'_eq_self

theorem flag_of_rspWord (r : Response) : (rspWord r).extractLsb' 128 8 = r.flag := by
  rw [rspWord, BitVec.extractLsb'_append_eq_of_le (by decide), BitVec.extractLsb'_append_eq_of_add_le (by decide)]
  exact BitVec.extractLsb'_eq_self

theorem data_of_rspWord (r : Response) : (rspWord r).extractLsb' 0 128 = r.data := by
  rw [rspWord, BitVec.extractLsb'_append_eq_of_add_le (by decide)]
  exact BitVec.extractLsb'_eq_self

theorem getElem?_rspBytes (w : RspWord) {j : Nat} (hj : j < 18) :
    (rspBytes w)[j]? = some (w.extractLsb' (144 - 8 - 8 * j) 8) := by simp [rspBytes, hj]

/-- Settles O15: both words are built by `++`, which appends their bytes (`bytesOf_append`), and the bytes of a command are
the base 256 digits of the word. -/
theorem wordsAsBytes : Obligations.WordsAsBytes :=
  ⟨wordBytes_mkWord,
    fun r => ⟨rspBytes_rspWord r, status_of_rspWord r, flag_of_rspWord r, data_of_rspWord r⟩,
    fun c w => ⟨fun _ hj => getElem?_wordBytes c hj, fun _ hj => getElem?_rspBytes w hj⟩,
    decodeBytes_wordBytes⟩

end Sys2Proof.Machine
end

section
/-! PROOF. Commands one after another: a command repeated (R45), and the order of the responses of a run (R49). -/

namespace Sys2Proof.Machine

/-! ## A command repeated -/

/-- Only STEP reads a register that it writes; every other command finds what it reads unchanged the second time, so that it
writes and answers the same again. -/
theorem exec_twice {i : Instr} (hi : ∀ a, i ≠ .step a) (s : State) :
    ∃ t u : State,
      exec i s = .next t ∧ exec i (transfer t) = .next u ∧ u.h = t.h ∧ u.acc = t.acc ∧ pending u = pending t := by
  cases i with
  | gfmul a b => exact ⟨_, _, exec_gfmul a b s, exec_gfmul a b _, rfl, rfl, rfl⟩
  | seth a => exact ⟨_, _, exec_seth a s, exec_seth a _, rfl, rfl, rfl⟩
  | init => exact ⟨_, _, exec_init s, exec_init _, rfl, rfl, rfl⟩
  | setacc a => exact ⟨_, _, exec_setacc a s, exec_setacc a _, rfl, rfl, rfl⟩
  | step a => exact absurd rfl (hi a)
  | getacc => exact ⟨_, _, exec_getacc s, exec_getacc _, rfl, rfl, rfl⟩
  | verify a b len => exact ⟨_, _, exec_verify a b len s, exec_verify a b len _, rfl, rfl, rfl⟩

/-- GETACC, GFMUL and VERIFY write no register. -/
theorem exec_keepsRegisters {a b : Block128} {len : Byte} {i : Instr}
    (hi : i = .getacc ∨ i = .gfmul a b ∨ i = .verify a b len) (s : State) :
    ∃ t : State, exec i s = .next t ∧ t.h = s.h ∧ t.acc = s.acc := by
  obtain rfl | rfl | rfl := hi
  · exact ⟨_, exec_getacc s, rfl, rfl⟩
  · exact ⟨_, exec_gfmul a b s, rfl, rfl⟩
  · exact ⟨_, exec_verify a b len s, rfl, rfl⟩

theorem runCommands_replicate_getacc (n : Nat) (s : State) :
    ∃ t : State,
      runCommands (List.replicate n .getacc) s = .next t ∧
        t.responses = s.responses ++ pending s ++ List.replicate n ⟨0x00, 0x00, s.acc⟩ := by
  induction n generalizing s with
  | zero => exact ⟨transfer s, rfl, (List.append_nil _).symm⟩
  | succ n ih =>
    obtain ⟨t, hrun, hresponses⟩ := ih (answer ⟨statusOk, 0x00, s.acc⟩ (transfer s))
    refine ⟨t, ?_, ?_⟩
    · rw [List.replicate_succ, runCommands_cons_exec, exec_getacc, andThen_next]
      exact hrun
    · rw [hresponses, List.replicate_succ, List.append_cons]
      rfl

/-- Two equal STEPs absorb their block twice. -/
theorem exec_step_twice (a : Block128) (s : State) :
    ∃ t u : State,
      exec (.step a) s = .next t ∧ exec (.step a) (transfer t) = .next u ∧
        t.acc = absorb s.h s.acc a ∧ u.acc = absorb s.h (absorb s.h s.acc a) a :=
  ⟨_, _, exec_step a s, exec_step a _, rfl, rfl⟩

/-- With the subkey ONE, a STEP xors its block into ACC, and a second one takes it out again. -/
theorem absorb_one_twice_ne : absorb ONE (absorb ONE ZERO ONE) ONE ≠ absorb ONE ZERO ONE := by decide

theorem exec_step_not_idempotent :
    ∃ (a : Block128) (s t u : State),
      exec (.step a) s = .next t ∧ exec (.step a) (transfer t) = .next u ∧ u.acc ≠ t.acc := by
  obtain ⟨t, u, ht, hu, hacc, hacc'⟩ := exec_step_twice ONE { State.reset with h := ONE }
  refine ⟨ONE, _, t, u, ht, hu, ?_⟩
  rw [hacc, hacc']
  exact absorb_one_twice_ne

/-- Settles O50: `exec_twice` by the command, the run of GETACC by induction on their number, and two STEPs of ONE from
H = ONE, ACC = ZERO. -/
theorem repeatedCommands : Obligations.RepeatedCommands :=
  ⟨fun _ s hi => exec_twice hi s, fun _ _ _ s _ hi => exec_keepsRegisters hi s, runCommands_replicate_getacc,
    exec_step_not_idempotent⟩

/-! ## The responses of a run -/

/-- A word is answered by one response, and the responses taken before it stay as they are. -/
theorem runWord_answers (c : CmdWord) (s : State) :
    ∃ (t : State) (r : Response), runWord c s = .next t ∧ pending t = [r] ∧ t.responses = s.responses := by
  obtain ⟨r, h, acc, hrun⟩ := runWord_cases c s
  exact ⟨_, r, hrun, rfl, rfl⟩

theorem runWords_cons_of_next {c : CmdWord} {s t : State} (h : runWord c (transfer s) = .next t) (cs : List CmdWord) :
    runWords (c :: cs) s = runWords cs t := by rw [runWords_cons, h, andThen_next]

/-- Settles O53, by induction on the words: the first response is that of the first word, and the n-th after it is the n-th
of the run that follows. -/
theorem responsesInOrder : Obligations.ResponsesInOrder := by
  intro cs
  induction cs with
  | nil =>
    intro s
    exact ⟨transfer s, [], runWords_nil s, rfl, (List.append_nil _).symm, rfl, fun _ _ _ hc => nomatch hc⟩
  | cons c cs ih =>
    intro s
    obtain ⟨w, r, hfirst, hr, hw⟩ := runWord_answers c (transfer s)
    obtain ⟨t, rs, hrun, hport, hresponses, hlength, hnth⟩ := ih w
    refine ⟨t, r :: rs, (runWords_cons_of_next hfirst cs).trans hrun, hport, ?_, congrArg (· + 1) hlength, ?_⟩
    · rw [hresponses, hw, hr, transfer_responses, List.append_assoc _ [r], List.singleton_append]
    · rintro (_ | n) d q hd hq
      · obtain rfl : c = d := Option.some.inj hd
        obtain rfl : r = q := Option.some.inj hq
        exact ⟨transfer s, w, runWords_nil s, hfirst, hr⟩
      · obtain ⟨u, v, hbefore, hword, hpending⟩ := hnth n d q hd hq
        exact ⟨u, v, (runWords_cons_of_next hfirst (cs.take n)).trans hbefore, hword, hpending⟩

end Sys2Proof.Machine
end

section
/-! PROOF. The command word (30_encoding.md): its fields both ways (R60), the decoder against R70's case list, the encoder
against it (R66, R73), and the unused fields (R67). -/

namespace Sys2Proof.Machine

/-! ## Fields -/

/-- The four fields stand side by side and fill the word. -/
@[simp] theorem mkWord_fields (c : CmdWord) : mkWord (opOf c) (lenOf c) (aOf c) (bOf c) = c := by
  have hhead : opOf c ++ lenOf c = c.extractLsb' 256 16 := BitVec.extractLsb'_append_extractLsb'_eq_extractLsb' rfl
  have hthree : c.extractLsb' 256 16 ++ aOf c = c.extractLsb' 128 144 :=
    BitVec.extractLsb'_append_extractLsb'_eq_extractLsb' rfl
  have hfour : c.extractLsb' 128 144 ++ bOf c = c.extractLsb' 0 272 :=
    BitVec.extractLsb'_append_extractLsb'_eq_extractLsb' rfl
  rw [mkWord, hhead, hthree, hfour]
  exact BitVec.extractLsb'_eq_self

theorem wordBytes_fields (c : CmdWord) :
    wordBytes c = opOf c :: lenOf c :: ((toBytes (aOf c)).toList ++ (toBytes (bOf c)).toList) := by
  rw [← wordBytes_mkWord, mkWord_fields]

theorem getLsbD_opOf (c : CmdWord) {k : Nat} (hk : k < 8) : (opOf c).getLsbD k = c.getLsbD (264 + k) := by
  simp [opOf, hk]

theorem getLsbD_lenOf (c : CmdWord) {k : Nat} (hk : k < 8) : (lenOf c).getLsbD k = c.getLsbD (256 + k) := by
  simp [lenOf, hk]

theorem pbit_aOf (c : CmdWord) {p : Nat} (hp : p < 128) : pbit (aOf c) p = c.getLsbD (255 - p) := by
  have hbit : 127 - p < 128 := by omega
  have hindex : 128 + (127 - p) = 255 - p := by omega
  simp [pbit, aOf, hbit, hindex]

theorem pbit_bOf (c : CmdWord) {p : Nat} (hp : p < 128) : pbit (bOf c) p = c.getLsbD (127 - p) := by
  have hbit : 127 - p < 128 := by omega
  simp [pbit, bOf, hbit]

/-- Settles O14: the fields of a word built from fields are the model's `opOf_mkWord` and its kin; the word built from its
own fields is `mkWord_fields`. -/
theorem commandWordFields : Obligations.CommandWordFields :=
  ⟨fun op len a b => ⟨opOf_mkWord op len a b, lenOf_mkWord op len a b, aOf_mkWord op len a b, bOf_mkWord op len a b⟩,
    fun c =>
      ⟨mkWord_fields c, fun _ hk => getLsbD_opOf c hk, fun _ hk => getLsbD_lenOf c hk, fun _ hp => pbit_aOf c hp,
        fun _ hp => pbit_bOf c hp, wordBytes_fields c⟩⟩

/-! ## Decoding and encoding -/

/-- Settles O18: by the command, each field is read back from the word it was written into. -/
theorem decodeEncode : Obligations.DecodeEncode := decode_encode

/-- Encoding the command that was read from a word writes that word with its unused fields set to zero (R67, R73). -/
theorem encode_readAs {c : CmdWord} {o : Opcode} (hop : opOf c = o.code) : encode (readAs c o) = canonicalWord c := by
  have hopcode : opcodeOf (opOf c) = some o := by rw [hop, opcodeOf_code]
  cases o with
  | verify =>
    rw [canonicalWord, hopcode, readAs, encode, ← hop]
    exact mkWord_fields c
  | gfmul | seth | init | setacc | step | getacc =>
    rw [canonicalWord, hopcode, readAs, encode, hop]

theorem encode_of_decode {c : CmdWord} {i : Instr} (hd : decode c = .ok i) : encode i = canonicalWord c := by
  obtain ⟨o, hop, ho⟩ | ⟨-, he⟩ := decode_cases c
  · obtain rfl := Except.ok.inj (ho.symm.trans hd)
    exact encode_readAs hop
  · exact nomatch he.symm.trans hd

theorem classify_of_ok {c : CmdWord} {i : Instr} (hd : decode c = .ok i) :
    classify c = if i.wf then .command i else .badLen := by simp only [classify, hd]

theorem classify_of_error {c : CmdWord} {e : DecodeError} (hd : decode c = .error e) : classify c = .illegalOp := by
  simp only [classify, hd]

/-- The seven codes written out (R66). -/
theorem ne_of_ne_codes {op : Byte} (hop : ∀ o : Opcode, op ≠ o.code) :
    op ≠ 0x01 ∧ op ≠ 0x02 ∧ op ≠ 0x03 ∧ op ≠ 0x04 ∧ op ≠ 0x05 ∧ op ≠ 0x06 ∧ op ≠ 0x07 :=
  ⟨hop .gfmul, hop .seth, hop .init, hop .setacc, hop .step, hop .getacc, hop .verify⟩

/-- Settles O16: a word whose OP is a code is a command, of which only VERIFY can be ill-formed; any other OP is illegal. -/
theorem classifyEveryWord : Obligations.ClassifyEveryWord := by
  intro c
  obtain ⟨o, hop, hd⟩ | ⟨hop, hd⟩ := decode_cases c
  · rw [classify_of_ok hd, hop]
    cases o with
    | verify => simp [Opcode.code, readAs, Instr.wf, lenLegal_iff]
    | gfmul | seth | init | setacc | step | getacc => simp [Opcode.code, readAs, Instr.wf]
  · obtain ⟨h1, h2, h3, h4, h5, h6, h7⟩ := ne_of_ne_codes hop
    simp only [classify_of_error hd, h1, h2, h3, h4, h5, h6, h7, if_false]

/-- Settles O20: the decoder evaluated on the six words. -/
theorem writtenWordsDecode : Obligations.WrittenWordsDecode := by
  refine ⟨?_, ?_, ?_, ?_, ?_, ?_⟩ <;> decide

/-! ## Unused fields -/

theorem decode_mkWord_code (o : Opcode) (len : Byte) (a b : Block128) :
    decode (mkWord o.code len a b) = .ok (readAs (mkWord o.code len a b) o) :=
  decode_of_opcode (by rw [opOf_mkWord, opcodeOf_code])

/-- Words of one opcode that are read as the same command do the same. -/
theorem runWord_mkWord_congr {o : Opcode} {len len' : Byte} {a a' b b' : Block128}
    (hread : readAs (mkWord o.code len a b) o = readAs (mkWord o.code len' a' b') o) (s : State) :
    runWord (mkWord o.code len a b) s = runWord (mkWord o.code len' a' b') s := by
  rw [runWord_ok (decode_mkWord_code o len a b), runWord_ok (decode_mkWord_code o len' a' b'), hread]

/-- Settles O17: the decoder reads no unused field into the command (`readAs`), and the command alone decides what a word
does. -/
theorem unusedFieldsIgnored : Obligations.UnusedFieldsIgnored := by
  intro len len' a a' b b' s
  refine ⟨runWord_mkWord_congr (o := .gfmul) ?_ s, runWord_mkWord_congr (o := .seth) ?_ s,
    runWord_mkWord_congr (o := .init) ?_ s, runWord_mkWord_congr (o := .setacc) ?_ s,
    runWord_mkWord_congr (o := .step) ?_ s, runWord_mkWord_congr (o := .getacc) ?_ s⟩ <;>
    simp only [readAs, aOf_mkWord, bOf_mkWord]

end Sys2Proof.Machine
end

section
/-! PROOF. Responses (30_encoding.md): STATUS, FLAG and DATA of the response to every word (R63 to R65), and that every step
and every edge keeps the responses ones the core may give. -/

namespace Sys2Proof.Machine

/-! ## The response to a command and to a word -/

/-- The response to a command. -/
def responseOf (i : Instr) (s : State) : Response :=
  match i with
  | .gfmul a b => ⟨statusOk, 0x00, gfmul a b⟩
  | .seth _ | .init | .setacc _ => ⟨statusOk, 0x00, ZERO⟩
  | .step a => ⟨statusOk, 0x00, absorb s.h s.acc a⟩
  | .getacc => ⟨statusOk, 0x00, s.acc⟩
  | .verify a b len => verifyResponse a b len

/-- A command as one equation: the registers it writes and the response it gives. -/
theorem exec_eq (i : Instr) (s : State) :
    exec i s = .next (answer (responseOf i s) { s with h := subkeyAfter i s, acc := accAfter i s }) := by
  cases i with
  | gfmul a b => exact exec_gfmul a b s
  | seth a => exact exec_seth a s
  | init => exact exec_init s
  | setacc a => exact exec_setacc a s
  | step a => exact exec_step a s
  | getacc => exact exec_getacc s
  | verify a b len => exact exec_verify a b len s

/-- The response to an illegal opcode (R153). -/
abbrev illegalOpResponse : Response := ⟨statusIllegalOp, 0x00, ZERO⟩

/-- What a word can be answered: the response to the command its OP names, or the one to an illegal opcode. -/
theorem runWord_response_cases (c : CmdWord) (s : State) :
    (∃ (o : Opcode) (t : State), opOf c = o.code ∧ runWord c s = .next t ∧
        t.port = .inFlight 0 (responseOf (readAs c o) s) ∧ t.acc = accAfter (readAs c o) s) ∨
      ((∀ o : Opcode, opOf c ≠ o.code) ∧ runWord c s = .next (answer illegalOpResponse s)) := by
  obtain ⟨o, hop, hd⟩ | ⟨hop, hd⟩ := decode_cases c
  · exact .inl ⟨o, _, hop, (runWord_ok hd s).trans (exec_eq _ s), rfl, rfl⟩
  · exact .inr ⟨hop, runWord_error hd s⟩

/-! ## VERIFY -/

theorem diffAfter_eq_zero_iff (a b : Block128) (n : Nat) :
    diffAfter a b n = 0 ↔ ∀ k < n, byteAt a k = byteAt b k := by
  induction n with
  | zero => simp
  | succ n ih =>
    calc diffAfter a b (n + 1) = 0
        ↔ diffAfter a b n = 0 ∧ byteAt a n ^^^ byteAt b n = 0 := BitVec.or_eq_zero_iff
      _ ↔ (∀ k < n, byteAt a k = byteAt b k) ∧ byteAt a n = byteAt b n := and_congr ih BitVec.xor_eq_zero_iff
      _ ↔ ∀ k < n + 1, byteAt a k = byteAt b k := Nat.forall_lt_succ_right.symm

theorem verify_iff_prefix (a b : Block128) (n : Nat) :
    verify a b n = true ↔ ∀ k < n, byteAt a k = byteAt b k :=
  (verify_iff a b n).trans (diffAfter_eq_zero_iff a b n)

theorem not_lenLegal_iff (len : Byte) : ¬ lenLegal len = true ↔ len.toNat = 0 ∨ 16 < len.toNat := by
  rw [lenLegal_iff]
  omega

theorem verifyResponse_status (a b : Block128) (len : Byte) :
    (verifyResponse a b len).status = if len.toNat = 0 ∨ 16 < len.toNat then statusBadLen else statusOk := by
  simp only [← not_lenLegal_iff]
  cases hlegal : lenLegal len <;> simp [verifyResponse, hlegal]

theorem verifyResponse_flag (a b : Block128) (len : Byte) :
    (verifyResponse a b len).flag =
      if 1 ≤ len.toNat ∧ len.toNat ≤ 16 ∧ ∀ k < len.toNat, byteAt a k = byteAt b k then 0x01 else 0x00 := by
  simp only [← verify_iff_prefix, ← and_assoc, ← lenLegal_iff]
  cases hlegal : lenLegal len <;> simp [verifyResponse, hlegal, flagByte]

@[simp] theorem verifyResponse_data (a b : Block128) (len : Byte) : (verifyResponse a b len).data = ZERO := by
  rw [verifyResponse]
  split_ifs <;> rfl

/-! ## STATUS, FLAG and DATA by the fields of the word -/

theorem code_toNat_range (o : Opcode) : 1 ≤ o.code.toNat ∧ o.code.toNat ≤ 7 := by cases o <;> decide

theorem toNat_range_of_ne_codes {op : Byte} (hop : ∀ o : Opcode, op ≠ o.code) : op.toNat < 1 ∨ 7 < op.toNat := by
  have hne := ne_of_ne_codes hop
  bv_omega

theorem responseOf_readAs_status {c : CmdWord} {o : Opcode} (hop : opOf c = o.code) (s : State) :
    (responseOf (readAs c o) s).status =
      if opOf c = 0x07 ∧ ((lenOf c).toNat = 0 ∨ 16 < (lenOf c).toNat) then 0x02 else 0x00 := by
  cases o <;> simp [hop, Opcode.code, readAs, responseOf, verifyResponse_status]

theorem responseOf_readAs_flag {c : CmdWord} {o : Opcode} (hop : opOf c = o.code) (s : State) :
    (responseOf (readAs c o) s).flag =
      if opOf c = 0x07 ∧ 1 ≤ (lenOf c).toNat ∧ (lenOf c).toNat ≤ 16 ∧
          ∀ k < (lenOf c).toNat, byteAt (aOf c) k = byteAt (bOf c) k
      then 0x01
      else 0x00 := by
  cases o <;> simp [hop, Opcode.code, readAs, responseOf, verifyResponse_flag]

theorem responseOf_readAs_data {c : CmdWord} {o : Opcode} (hop : opOf c = o.code) (s : State) :
    (responseOf (readAs c o) s).data =
      if opOf c = 0x01 then gfmul (aOf c) (bOf c)
      else if opOf c = 0x05 then accAfter (readAs c o) s
      else if opOf c = 0x06 then s.acc
      else ZERO := by
  cases o <;> simp [hop, Opcode.code, readAs, responseOf, accAfter]

/-- Settles O10: OP in 1..7 is a code, whose command answers OK but for VERIFY's LEN; any other OP is no code. -/
theorem statusOfEveryWord : Obligations.StatusOfEveryWord := by
  intro c s
  obtain ⟨o, t, hop, hrun, hport, -⟩ | ⟨hop, hrun⟩ := runWord_response_cases c s
  · have hrange : ¬ ((opOf c).toNat < 1 ∨ 7 < (opOf c).toNat) := by
      have hcode := code_toNat_range o
      rw [hop]
      omega
    refine ⟨t, _, hrun, hport, ?_⟩
    rw [if_neg hrange, responseOf_readAs_status hop]
  · exact ⟨_, illegalOpResponse, hrun, rfl, (if_pos (toNat_range_of_ne_codes hop)).symm⟩

/-- Settles O11: of the commands only VERIFY raises FLAG, and an illegal opcode does not. -/
theorem flagOfEveryWord : Obligations.FlagOfEveryWord := by
  intro c s
  obtain ⟨o, t, hop, hrun, hport, -⟩ | ⟨hop, hrun⟩ := runWord_response_cases c s
  · exact ⟨t, _, hrun, hport, responseOf_readAs_flag hop s⟩
  · exact ⟨_, illegalOpResponse, hrun, rfl, (if_neg fun h => hop .verify h.1).symm⟩

/-- Settles O12: by the command, where STEP's DATA is the ACC it writes; an illegal opcode has none. -/
theorem dataOfEveryWord : Obligations.DataOfEveryWord := by
  intro c s
  obtain ⟨o, t, hop, hrun, hport, hacc⟩ | ⟨hop, hrun⟩ := runWord_response_cases c s
  · refine ⟨t, _, hrun, hport, ?_⟩
    rw [hacc]
    exact responseOf_readAs_data hop s
  · refine ⟨_, illegalOpResponse, hrun, rfl, ?_⟩
    exact ((if_neg (hop .gfmul)).trans ((if_neg (hop .step)).trans (if_neg (hop .getacc)))).symm

/-! ## Legal responses -/

/-- An answer without an error and without FLAG may carry any data. -/
theorem legal_ok (data : Block128) : Response.legal ⟨statusOk, 0x00, data⟩ := by simp [Response.legal]

theorem legal_verifyResponse (a b : Block128) (len : Byte) : (verifyResponse a b len).legal := by
  rw [verifyResponse]
  split_ifs
  · cases verify a b len.toNat <;> decide
  · decide

theorem legal_responseOf (i : Instr) (s : State) : (responseOf i s).legal := by
  cases i with
  | verify a b len => exact legal_verifyResponse a b len
  | gfmul | seth | init | setacc | step | getacc => exact legal_ok _

/-- Every word is answered by a legal response, and the responses taken before it stay as they are. -/
theorem runWord_answers_legally (c : CmdWord) (s : State) :
    ∃ (t : State) (r : Response),
      runWord c s = .next t ∧ pending t = [r] ∧ r.legal ∧ t.responses = s.responses := by
  cases hd : decode c with
  | ok i => exact ⟨_, _, (runWord_ok hd s).trans (exec_eq i s), rfl, legal_responseOf i s, rfl⟩
  | error e => exact ⟨_, illegalOpResponse, runWord_error hd s, rfl, by decide, rfl⟩

/-! ## Legal states -/

theorem legal_of_pending {s t : State} {r : Response} (hs : s.legal) (hr : r.legal)
    (hresponses : t.responses = s.responses) (hpending : pending t = [r]) : t.legal := by
  intro q hq
  rw [hresponses, hpending, List.mem_append, List.mem_singleton] at hq
  obtain hq | rfl := hq
  · exact hs q (List.mem_append_left _ hq)
  · exact hr

theorem legal_transfer {s : State} (hs : s.legal) : (transfer s).legal := by
  intro r hr
  rw [transfer_responses, transfer_pending, List.append_nil] at hr
  exact hs r hr

theorem legal_resetCore {s : State} (hs : s.legal) : (resetCore s).legal := by
  intro r hr
  rw [resetCore_responses, resetCore_pending, List.append_nil] at hr
  exact hs r (List.mem_append_left _ hr)

theorem legal_runWord {c : CmdWord} {s t : State} (hs : s.legal) (hrun : runWord c s = .next t) : t.legal := by
  obtain ⟨u, r, hu, hpending, hr, hresponses⟩ := runWord_answers_legally c s
  obtain rfl := Host.Outcome.next.inj (hu.symm.trans hrun)
  exact legal_of_pending hs hr hresponses hpending

/-- A legal state with other events to come is legal. -/
theorem legal_withEvents {s : State} (hs : s.legal) (es : List HostEvent) : State.legal { s with events := es } := hs

/-- Settles O45: a step answers a word legally (`legal_runWord`), takes a response, resets, or does nothing. -/
theorem stepKeepsResponsesLegal : Obligations.StepKeepsResponsesLegal := by
  intro s t hs hstep
  obtain ⟨-, rfl⟩ | ⟨c, es, -, hrun⟩ | ⟨es, -, rfl⟩ | ⟨es, -, rfl⟩ := step_cases hstep
  · exact hs
  · exact legal_runWord (legal_transfer (legal_withEvents hs es)) hrun
  · exact legal_transfer (legal_withEvents hs es)
  · exact legal_resetCore (legal_withEvents hs es)

/-! ## Every rising edge -/

/-- What one rising edge can do: reset, wait for a command, accept one, count a cycle of its latency, hold its response, or
transfer it. -/
theorem clock_cases {p : Pins} {s t : State} (h : clock p s = .next t) :
    (p.rstN = false ∧ t = resetCore s) ∨
      (p.rstN = true ∧
        ((s.port = .idle ∧ p.cmdValid = false ∧ t = s) ∨
          (s.port = .idle ∧ p.cmdValid = true ∧ accept p.cmd s = .next t) ∨
          (∃ n r, s.port = .inFlight (n + 1) r ∧ t = { s with port := .inFlight n r }) ∨
          (∃ r, s.port = .inFlight 0 r ∧ p.rspReady = false ∧ t = s) ∨
          ∃ r, s.port = .inFlight 0 r ∧ p.rspReady = true ∧ t = transfer s)) := by
  have hnext : ∀ {u : State}, clock p s = .next u → t = u := fun hu => Host.Outcome.next.inj (h.symm.trans hu)
  cases hp : p.rstN with
  | false => exact .inl ⟨rfl, hnext (clock_reset hp s)⟩
  | true =>
    refine .inr ⟨rfl, ?_⟩
    cases hs : s.port with
    | idle =>
      cases hv : p.cmdValid with
      | false => exact .inl ⟨rfl, rfl, hnext (clock_idle hp hs hv)⟩
      | true => exact .inr (.inl ⟨rfl, rfl, (clock_accept hp hs hv).symm.trans h⟩)
    | inFlight n r =>
      cases n with
      | succ n => exact .inr (.inr (.inl ⟨n, r, rfl, hnext (clock_wait hp hs)⟩))
      | zero =>
        cases hr : p.rspReady with
        | false => exact .inr (.inr (.inr (.inl ⟨r, rfl, rfl, hnext (clock_hold hp hs hr)⟩)))
        | true => exact .inr (.inr (.inr (.inr ⟨r, rfl, rfl, hnext (clock_transfer hp hs hr)⟩)))

@[simp] theorem pending_delay (n : Nat) (s : State) : pending (delay n s) = pending s := by
  cases hs : s.port <;> simp [delay, pending, hs]

/-- The response of an accepted word is in flight, whatever its latency. -/
theorem legal_accept {c : CmdWord} {s t : State} (hs : s.legal) (haccept : accept c s = .next t) : t.legal := by
  obtain ⟨u, r, hu, hpending, hr, hresponses⟩ := runWord_answers_legally c s
  rw [accept, hu, andThen_next] at haccept
  obtain rfl := Host.Outcome.next.inj haccept
  exact legal_of_pending hs hr ((delay_responses _ u).trans hresponses) ((pending_delay _ u).trans hpending)

/-- Counting a cycle of the latency changes no response. -/
theorem legal_wait {s : State} {n m : Nat} {r : Response} (hs : s.legal) (hport : s.port = .inFlight n r) :
    State.legal { s with port := .inFlight m r } := by
  have hr : r.legal := hs r (by simp [pending_inFlight hport])
  exact legal_of_pending hs hr rfl rfl

/-- Settles O46: by what an edge can do; it brings a new response only where it accepts a word (`legal_accept`). -/
theorem clockKeepsResponsesLegal : Obligations.ClockKeepsResponsesLegal := by
  intro p s t hs hclock
  obtain ⟨-, rfl⟩ | ⟨-, ⟨-, -, rfl⟩ | ⟨-, -, haccept⟩ | ⟨n, r, hport, rfl⟩ | ⟨r, -, -, rfl⟩ | ⟨r, -, -, rfl⟩⟩ :=
    clock_cases hclock
  · exact legal_resetCore hs
  · exact hs
  · exact legal_accept hs haccept
  · exact legal_wait hs hport
  · exact hs
  · exact legal_transfer hs

end Sys2Proof.Machine
end

section
/-! PROOF. Assembly text (R71 to R73): a line made of a mnemonic and operands, all of them words without a blank, a comma
or a semicolon, is cut into those pieces again; so every command's line is read back, and assembled to its canonical word. -/

namespace Sys2Proof.Machine

/-! ## Words -/

/-- A character that separates nothing: no blank, no comma, no start of a comment. -/
def isWordChar (c : Char) : Bool := !isBlank c && decide (c ≠ ',') && decide (c ≠ ';')

/-- A piece of a line that the parser takes whole. -/
structure IsWord (w : List Char) : Prop where
  nonempty : w ≠ []
  chars : ∀ c ∈ w, isWordChar c = true

theorem isWordChar_iff (c : Char) : isWordChar c = true ↔ isBlank c = false ∧ c ≠ ',' ∧ c ≠ ';' := by
  simp [isWordChar, and_assoc]

section Word

variable {w : List Char} (hw : IsWord w)

include hw

theorem IsWord.not_blank {c : Char} (hc : c ∈ w) : isBlank c = false := ((isWordChar_iff c).mp (hw.chars c hc)).1

theorem IsWord.ne_comma {c : Char} (hc : c ∈ w) : c ≠ ',' := ((isWordChar_iff c).mp (hw.chars c hc)).2.1

theorem IsWord.ne_semicolon {c : Char} (hc : c ∈ w) : c ≠ ';' := ((isWordChar_iff c).mp (hw.chars c hc)).2.2

theorem IsWord.dropWhile_append (cs : List Char) : (w ++ cs).dropWhile isBlank = w ++ cs := by
  obtain ⟨c, ds, rfl⟩ := List.exists_cons_of_ne_nil hw.nonempty
  exact List.dropWhile_cons_of_neg (by simp [hw.not_blank])

theorem IsWord.rdropWhile_append (cs : List Char) : (cs ++ w).rdropWhile isBlank = cs ++ w := by
  refine List.rdropWhile_eq_self_iff.mpr fun _ => ?_
  rw [List.getLast_append_of_ne_nil _ hw.nonempty, hw.not_blank (List.getLast_mem hw.nonempty)]
  exact Bool.false_ne_true

end Word

/-! ## Trimming -/

theorem trim_eq (cs : List Char) : trim cs = (cs.dropWhile isBlank).rdropWhile isBlank := rfl

theorem trim_space_cons (cs : List Char) : trim (' ' :: cs) = trim cs := rfl

/-- Text that begins with a word and ends with one has no blanks at its ends. -/
theorem trim_eq_self {v w cs : List Char} (hv : IsWord v) (hpre : v <+: cs) (hw : IsWord w) (hsuf : w <:+ cs) :
    trim cs = cs := by
  have hdrop : cs.dropWhile isBlank = cs := by
    obtain ⟨ds, rfl⟩ := hpre
    exact hv.dropWhile_append ds
  obtain ⟨ds, rfl⟩ := hsuf
  rw [trim_eq, hdrop, hw.rdropWhile_append]

theorem trim_word {w : List Char} (hw : IsWord w) : trim w = w := trim_eq_self hw List.prefix_rfl hw List.suffix_rfl

/-! ## The operands of a line -/

/-- What stands after the first operand: every further one, behind a comma and a space. -/
def furtherOperands (ws : List (List Char)) : List Char := ws.flatMap fun w => ',' :: ' ' :: w

@[simp] theorem furtherOperands_nil : furtherOperands [] = [] := rfl

@[simp] theorem furtherOperands_cons (w : List Char) (ws : List (List Char)) :
    furtherOperands (w :: ws) = ',' :: ' ' :: (w ++ furtherOperands ws) := rfl

theorem joinOperands_cons (w : List Char) (ws : List (List Char)) :
    joinOperands (w :: ws) = ' ' :: (w ++ furtherOperands ws) := by
  induction ws generalizing w with
  | nil => rw [furtherOperands_nil, List.append_nil, joinOperands]
  | cons v vs ih => rw [furtherOperands_cons, ← ih v, joinOperands]; exact List.cons_ne_nil v vs

/-- Text without a comma is one piece. -/
theorem splitCommas_of_noComma {cs : List Char} (hcs : ∀ c ∈ cs, c ≠ ',') : splitCommas cs = [cs] := by
  induction cs with
  | nil => rfl
  | cons c cs ih =>
    obtain ⟨hc, hcs⟩ := List.forall_mem_cons.mp hcs
    rw [splitCommas, if_neg hc, ih hcs]

theorem splitCommas_append_comma {cs : List Char} (hcs : ∀ c ∈ cs, c ≠ ',') (ds : List Char) :
    splitCommas (cs ++ ',' :: ds) = cs :: splitCommas ds := by
  induction cs with
  | nil => rfl
  | cons c cs ih =>
    obtain ⟨hc, hcs⟩ := List.forall_mem_cons.mp hcs
    rw [List.cons_append, splitCommas, if_neg hc, ih hcs]

theorem splitCommas_operands {cs : List Char} {ws : List (List Char)} (hcs : ∀ c ∈ cs, c ≠ ',')
    (hws : ∀ w ∈ ws, IsWord w) : splitCommas (cs ++ furtherOperands ws) = cs :: ws.map (' ' :: ·) := by
  induction ws generalizing cs with
  | nil => rw [furtherOperands_nil, List.append_nil, splitCommas_of_noComma hcs, List.map_nil]
  | cons w ws ih =>
    obtain ⟨hw, hws⟩ := List.forall_mem_cons.mp hws
    have hpiece : ∀ c ∈ ' ' :: w, c ≠ ',' := List.forall_mem_cons.mpr ⟨by decide, fun _ hc => hw.ne_comma hc⟩
    rw [furtherOperands_cons, splitCommas_append_comma hcs, ← List.cons_append, ih hpiece hws, List.map_cons]

/-- Text that ends with its operands ends with a word. -/
theorem exists_word_suffix {w : List Char} {ws : List (List Char)} (hw : IsWord w) (hws : ∀ v ∈ ws, IsWord v) :
    ∃ v : List Char, IsWord v ∧ v <:+ w ++ furtherOperands ws := by
  induction ws generalizing w with
  | nil => exact ⟨w, hw, by rw [furtherOperands_nil, List.append_nil]⟩
  | cons u ws ih =>
    obtain ⟨hu, hws⟩ := List.forall_mem_cons.mp hws
    obtain ⟨v, hv, hsuf⟩ := ih hu hws
    exact ⟨v, hv, hsuf.trans ⟨w ++ [',', ' '], by simp⟩⟩

theorem operandsOf_of_trim {cs ds : List Char} (htrim : trim cs = ds) (hds : ds ≠ []) :
    operandsOf cs = (splitCommas ds).map trim := by
  obtain ⟨c, es, rfl⟩ := List.exists_cons_of_ne_nil hds
  simp only [operandsOf, htrim]

/-- The operands are cut out as they were written. -/
theorem operandsOf_joinOperands {ws : List (List Char)} (hws : ∀ w ∈ ws, IsWord w) :
    operandsOf (joinOperands ws) = ws := by
  cases ws with
  | nil => rfl
  | cons w ws =>
    obtain ⟨hw, hws⟩ := List.forall_mem_cons.mp hws
    obtain ⟨v, hv, hsuf⟩ := exists_word_suffix hw hws
    have htrim : trim (joinOperands (w :: ws)) = w ++ furtherOperands ws := by
      rw [joinOperands_cons, trim_space_cons]
      exact trim_eq_self hw (List.prefix_append _ _) hv hsuf
    have hne : w ++ furtherOperands ws ≠ [] := List.append_ne_nil_of_left_ne_nil hw.nonempty _
    have hrest : ws.map (trim ∘ (' ' :: ·)) = ws :=
      (List.map_congr_left fun u hu => (trim_space_cons u).trans (trim_word (hws u hu))).trans ws.map_id
    rw [operandsOf_of_trim htrim hne, splitCommas_operands (fun _ hc => hw.ne_comma hc) hws, List.map_cons,
      List.map_map, trim_word hw, hrest]

/-! ## A line -/

/-- The mnemonic is cut off where the operands begin, which is with a space, or at the end of the line. -/
theorem span_line {m : List Char} (hm : IsWord m) (ws : List (List Char)) :
    (m ++ joinOperands ws).takeWhile (fun x => !isBlank x) = m ∧
      (m ++ joinOperands ws).dropWhile (fun x => !isBlank x) = joinOperands ws := by
  have hchars : ∀ c ∈ m, (!isBlank c) = true := fun c hc => by rw [hm.not_blank hc, Bool.not_false]
  rw [List.takeWhile_append_of_pos hchars, List.dropWhile_append_of_pos hchars]
  cases ws with
  | nil => exact ⟨List.append_nil m, rfl⟩
  | cons w ws =>
    rw [joinOperands_cons]
    exact ⟨List.append_nil m, rfl⟩

theorem furtherOperands_ne_semicolon {ws : List (List Char)} (hws : ∀ w ∈ ws, IsWord w) :
    ∀ c ∈ furtherOperands ws, c ≠ ';' := by
  intro c hc
  obtain ⟨w, hw, hc⟩ := List.mem_flatMap.mp hc
  obtain rfl | rfl | hc : c = ',' ∨ c = ' ' ∨ c ∈ w := by simpa using hc
  · decide
  · decide
  · exact (hws w hw).ne_semicolon hc

theorem joinOperands_ne_semicolon {ws : List (List Char)} (hws : ∀ w ∈ ws, IsWord w) :
    ∀ c ∈ joinOperands ws, c ≠ ';' := by
  cases ws with
  | nil => exact fun c hc => absurd hc List.not_mem_nil
  | cons w ws =>
    obtain ⟨hw, hws⟩ := List.forall_mem_cons.mp hws
    rw [joinOperands_cons, List.forall_mem_cons, List.forall_mem_append]
    exact ⟨by decide, fun _ hc => hw.ne_semicolon hc, furtherOperands_ne_semicolon hws⟩

theorem stripComment_line {m : List Char} {ws : List (List Char)} (hm : IsWord m) (hws : ∀ w ∈ ws, IsWord w) :
    stripComment (m ++ joinOperands ws) = m ++ joinOperands ws := by
  refine List.takeWhile_eq_self_iff.mpr fun c hc => decide_eq_true ?_
  obtain hc | hc := List.mem_append.mp hc
  · exact hm.ne_semicolon hc
  · exact joinOperands_ne_semicolon hws c hc

/-- A line begins with its mnemonic and ends with its last operand, or with the mnemonic if there is none. -/
theorem trim_line {m : List Char} {ws : List (List Char)} (hm : IsWord m) (hws : ∀ w ∈ ws, IsWord w) :
    trim (m ++ joinOperands ws) = m ++ joinOperands ws := by
  cases ws with
  | nil => rw [joinOperands, List.append_nil, trim_word hm]
  | cons w ws =>
    obtain ⟨hw, hws⟩ := List.forall_mem_cons.mp hws
    obtain ⟨v, hv, hsuf⟩ := exists_word_suffix hw hws
    rw [joinOperands_cons]
    exact trim_eq_self hm (List.prefix_append _ _) hv
      (hsuf.trans ((List.suffix_cons _ _).trans (List.suffix_append _ _)))

theorem parseLine_of_trim {cs ds : List Char} (htrim : trim (stripComment cs) = ds) (hds : ds ≠ []) :
    parseLine cs =
      (commandOf (ds.takeWhile fun x => !isBlank x) (operandsOf (ds.dropWhile fun x => !isBlank x))).map some := by
  obtain ⟨c, es, rfl⟩ := List.exists_cons_of_ne_nil hds
  simp only [parseLine, htrim]

/-- A line of words is parsed as the command its mnemonic and its operands name. -/
theorem parseLine_words {m : List Char} {ws : List (List Char)} (hm : IsWord m) (hws : ∀ w ∈ ws, IsWord w) :
    parseLine (m ++ joinOperands ws) = (commandOf m ws).map some := by
  have htrim : trim (stripComment (m ++ joinOperands ws)) = m ++ joinOperands ws := by
    rw [stripComment_line hm hws, trim_line hm hws]
  have hne : m ++ joinOperands ws ≠ [] := List.append_ne_nil_of_left_ne_nil hm.nonempty _
  obtain ⟨hword, hoperands⟩ := span_line hm ws
  rw [parseLine_of_trim htrim hne, hword, hoperands, operandsOf_joinOperands hws]

/-! ## The words the disassembler writes -/

theorem isWord_mnemonic (o : Opcode) : IsWord (mnemonic o) where
  nonempty := by cases o <;> decide
  chars := List.all_eq_true.mp (by cases o <;> rfl)

theorem isWordChar_digitChar : ∀ d < 16, isWordChar (digitChar d) = true := by decide

theorem digitList_lt {base : Nat} (hbase : 0 < base) (n x : Nat) : ∀ d ∈ digitList base n x, d < base := by
  intro d hd
  obtain ⟨k, -, rfl⟩ := List.mem_map.mp hd
  exact Nat.mod_lt _ hbase

/-- One or more digits in a base of at most 16 are a word. -/
theorem isWord_digits {base n : Nat} (hbase : 0 < base) (hle : base ≤ 16) (hn : 0 < n) (x : Nat) :
    IsWord ((digitList base n x).map digitChar) where
  nonempty := by simp [digitList, hn.ne']
  chars := by
    intro c hc
    obtain ⟨d, hd, rfl⟩ := List.mem_map.mp hc
    exact isWordChar_digitChar d (by have := digitList_lt hbase n x d hd; omega)

theorem isWord_showBlock (b : Block128) : IsWord (showBlock b) := by
  rw [showBlock_eq]
  exact isWord_digits (by decide) (by decide) (by decide) _

/-- The number of digits of a LEN byte in decimal. -/
def lenWidth (n : Nat) : Nat := if n < 10 then 1 else if n < 100 then 2 else 3

theorem lenWidth_pos (n : Nat) : 0 < lenWidth n := by unfold lenWidth; split_ifs <;> decide

theorem lt_pow_lenWidth {n : Nat} (hn : n < 256) : n < 10 ^ lenWidth n := by unfold lenWidth; split_ifs <;> omega

theorem showLen_eq (len : Byte) : showLen len = (digitList 10 (lenWidth len.toNat) len.toNat).map digitChar := by
  have hlt : len.toNat < 256 := len.isLt
  unfold showLen lenWidth
  split_ifs with hone htwo
  · simp [digitList, Nat.mod_eq_of_lt hone]
  · have hten : len.toNat / 10 < 10 := by omega
    simp [digitList, List.range_succ, Nat.mod_eq_of_lt hten]
  · have hhundred : len.toNat / 100 < 10 := by omega
    simp [digitList, List.range_succ, Nat.mod_eq_of_lt hhundred]

theorem isWord_showLen (len : Byte) : IsWord (showLen len) := by
  rw [showLen_eq]
  exact isWord_digits (by decide) (by decide) (lenWidth_pos _) _

theorem decDigit_digitChar : ∀ d < 10, decDigit (digitChar d) = some d := by decide

theorem digitsValue_showLen (len : Byte) : digitsValue 10 decDigit 0 (showLen len) = some len.toNat := by
  have hdigits : ∀ d ∈ digitList 10 (lenWidth len.toNat) len.toNat, decDigit (digitChar d) = some d :=
    fun d hd => decDigit_digitChar d (digitList_lt (by decide) _ _ d hd)
  rw [showLen_eq, digitsValue_map hdigits, digitsNumber_digitList, Nat.zero_mul, Nat.zero_add,
    Nat.mod_eq_of_lt (lt_pow_lenWidth len.isLt)]

@[simp] theorem parseLen_showLen (len : Byte) : parseLen (showLen len) = .ok len := by
  have hvalue := digitsValue_showLen len
  obtain ⟨c, cs, hcons⟩ := List.exists_cons_of_ne_nil (isWord_showLen len).nonempty
  rw [hcons] at hvalue ⊢
  have hlt : len.toNat < 256 := len.isLt
  simp only [parseLen, hvalue, if_pos hlt, BitVec.ofNat_toNat, BitVec.setWidth_eq]

/-! ## Commands as lines -/

/-- The operands in a command's line. -/
def operandWords : Instr → List (List Char)
  | .gfmul a b => [showBlock a, showBlock b]
  | .seth a | .setacc a | .step a => [showBlock a]
  | .init | .getacc => []
  | .verify a b len => [showBlock a, showBlock b, showLen len]

theorem disassemble_eq (i : Instr) : disassemble i = mnemonic i.opcode ++ joinOperands (operandWords i) := by
  cases i <;> rfl

theorem isWord_operandWords (i : Instr) : ∀ w ∈ operandWords i, IsWord w := by
  cases i <;> simp [operandWords, isWord_showBlock, isWord_showLen]

theorem oneBlock_showBlock (a : Block128) (f : Block128 → Instr) : oneBlock [showBlock a] f = .ok (f a) := by
  simp only [oneBlock, parseBlock_showBlock, Except.map]

theorem twoBlocks_showBlock (a b : Block128) (f : Block128 → Block128 → Instr) :
    twoBlocks [showBlock a, showBlock b] f = .ok (f a b) := by
  simp only [twoBlocks, parseBlock_showBlock, Except.map]

theorem twoBlocksLen_show (a b : Block128) (len : Byte) (f : Block128 → Block128 → Byte → Instr) :
    twoBlocksLen [showBlock a, showBlock b, showLen len] f = .ok (f a b len) := by
  simp only [twoBlocksLen, parseBlock_showBlock, parseLen_showLen, Except.map]

/-- A command's mnemonic and operands name that command. -/
theorem commandOf_operandWords (i : Instr) : commandOf (mnemonic i.opcode) (operandWords i) = .ok i := by
  cases i with
  | gfmul a b => exact twoBlocks_showBlock a b .gfmul
  | seth a => exact oneBlock_showBlock a .seth
  | init => rfl
  | setacc a => exact oneBlock_showBlock a .setacc
  | step a => exact oneBlock_showBlock a .step
  | getacc => rfl
  | verify a b len => exact twoBlocksLen_show a b len .verify

/-- Settles O21: the line is its words joined (`disassemble_eq`), the parser cuts it into them again (`parseLine_words`),
and they name the command. -/
theorem parseDisassembly : Obligations.ParseDisassembly := by
  intro i
  rw [disassemble_eq, parseLine_words (isWord_mnemonic _) (isWord_operandWords i), commandOf_operandWords]
  rfl

theorem assembleLine_disassemble (i : Instr) : assembleLine (disassemble i) = .ok (some (encode i)) := by
  rw [assembleLine, parseDisassembly i]
  rfl

/-- Settles O19: `encode_of_decode` for words, `assembleLine_disassemble` for lines; the three examples are the encoder's own
equations. -/
theorem canonicalEncoding : Obligations.CanonicalEncoding :=
  ⟨fun _ _ => encode_of_decode, assembleLine_disassemble, rfl, rfl, rfl⟩

/-- Settles O22: each pseudo-instruction takes two blocks, and VERIFY takes three operands. -/
theorem pseudoInstructions : Obligations.PseudoInstructions := by
  intro a b
  exact ⟨twoBlocks_showBlock a b _, twoBlocks_showBlock a b _, twoBlocks_showBlock a b _, rfl⟩

end Sys2Proof.Machine
end

section
/-! PROOF. The state access commands SETH, INIT, SETACC and GETACC (40_state_access.md): which fields of their words are read,
and what each writes and answers. -/

namespace Sys2Proof.Machine

/-! ## Decoding, whatever the fields the command does not use hold (R67) -/

theorem decode_seth (len : Byte) (a b : Block128) : decode (mkWord 0x02 len a b) = .ok (.seth a) :=
  (decode_mkWord_code .seth len a b).trans (by rw [readAs, aOf_mkWord])

theorem decode_init (len : Byte) (a b : Block128) : decode (mkWord 0x03 len a b) = .ok .init :=
  decode_mkWord_code .init len a b

theorem decode_setacc (len : Byte) (a b : Block128) : decode (mkWord 0x04 len a b) = .ok (.setacc a) :=
  (decode_mkWord_code .setacc len a b).trans (by rw [readAs, aOf_mkWord])

theorem decode_getacc (len : Byte) (a b : Block128) : decode (mkWord 0x06 len a b) = .ok .getacc :=
  decode_mkWord_code .getacc len a b

/-! ## Commands that meet in a value -/

/-- Under the zero subkey every product is ZERO, so a STEP clears ACC. -/
theorem exec_step_zero_subkey (d : Block128) (s : State) :
    exec (.step d) { s with h := ZERO } =
      .next { s with h := ZERO, acc := ZERO, port := .inFlight 0 ⟨0x00, 0x00, ZERO⟩ } := by
  rw [exec_step, absorb_zero_subkey]
  rfl

theorem exec_init_eq_setacc_zero (s : State) : exec .init s = exec (.setacc ZERO) s := by
  rw [exec_init, exec_setacc]

/-- A STEP answers the ACC it leaves, and taking that response changes no register, so a GETACC straight after it answers the
same. -/
theorem exec_getacc_after_step (d : Block128) (s : State) :
    ∃ t u : State,
      exec (.step d) s = .next t ∧ exec .getacc (transfer t) = .next u ∧ pending u = pending t ∧ u.acc = t.acc := by
  refine ⟨_, _, exec_step d s, exec_getacc _, ?_, ?_⟩
  · simp only [answer_pending, transfer_acc, answer_acc, writeAcc_acc]
  · rw [answer_acc, transfer_acc]

/-! ## The four commands -/

/-- Settles O1: the decoder reads A alone, `exec_seth` is the equation with its frame, and a zero subkey makes every STEP
answer ZERO. -/
theorem sethLoadsSubkey : Obligations.SethLoadsSubkey :=
  fun a b len s => ⟨decode_seth len a b, exec_seth a s, fun d => exec_step_zero_subkey d s⟩

/-- Settles O2: the decoder reads no operand, and `exec_init` writes what a SETACC of ZERO writes. -/
theorem initClearsAccumulator : Obligations.InitClearsAccumulator :=
  fun a b len s => ⟨decode_init len a b, exec_init s, exec_init_eq_setacc_zero s⟩

/-- Settles O3: the decoder reads A alone, and `exec_setacc` is the equation with its frame. -/
theorem setaccLoadsAccumulator : Obligations.SetaccLoadsAccumulator :=
  fun a b len s => ⟨decode_setacc len a b, exec_setacc a s⟩

/-- Settles O4: the decoder reads no operand, `exec_getacc` is the equation with its frame, also from reset, where ACC is
ZERO, and after a STEP it answers the ACC that STEP answered. -/
theorem getaccReadsAccumulator : Obligations.GetaccReadsAccumulator :=
  ⟨fun a b len s => ⟨decode_getacc len a b, exec_getacc s⟩, exec_getacc State.reset, exec_getacc_after_step⟩

end Sys2Proof.Machine
end

section
/-! PROOF. The loop of the multiplier (41_gf128_multiplier.md): its invariant and closed form (R103), that it is R100's loop on
bytes (R101, R102), and the command GFMUL (R105). -/

namespace Sys2Proof.Machine

/-! ## The loop -/

theorem mulAfter_v (x h : Block128) (n : Nat) : (mulAfter x h n).v = dbl^[n] h := by
  induction n with
  | zero => rfl
  | succ n ih => rw [mulAfter_succ, mulBody_v, ih, Function.iterate_succ_apply']

theorem mulAfter_z_succ (x h : Block128) (n : Nat) :
    (mulAfter x h (n + 1)).z =
      if pbit x n then (mulAfter x h n).z ^^^ dbl^[n] h else (mulAfter x h n).z := by
  rw [mulAfter_succ, mulBody_z, mulAfter_v]

theorem mulAfter_z (x h : Block128) (n : Nat) :
    (mulAfter x h n).z = (List.range n).foldl (fun z p => if pbit x p then z ^^^ dbl^[p] h else z) ZERO := by
  induction n with
  | zero => rfl
  | succ n ih => rw [mulAfter_z_succ, ih, List.range_succ, List.foldl_append, List.foldl_cons, List.foldl_nil]

/-- Settles O27: the two working values by induction on the iterations; the product is the second after 128. -/
theorem multiplierLoopInvariant : Obligations.MultiplierLoopInvariant :=
  ⟨fun x h i => ⟨mulAfter_v x h i, mulAfter_z x h i⟩, fun x h => (gfmul_eq x h).trans (mulAfter_z x h 128)⟩

/-! ## Doubling on bytes -/

@[simp] theorem getElem_toBytes (b : Block128) (k : Nat) (hk : k < 16) : (toBytes b)[k] = byteAt b k := by
  simp [toBytes]

theorem byteAt_shift_first (v : Block128) : byteAt (v >>> 1) 0 = byteAt v 0 >>> 1 := by
  refine BitVec.eq_of_getLsbD_eq fun i hi => ?_
  simp only [getLsbD_byteAt, BitVec.getLsbD_ushiftRight]
  by_cases hlast : i = 7
  · subst hlast
    simp
  · rw [show 1 + (8 * (15 - 0) + i) = 8 * (15 - 0) + (1 + i) by omega]
    simp [show i < 8 from hi, show 1 + i < 8 by omega]

/-- The top bit of a byte of the shifted block is the lowest bit of the byte before it. -/
theorem byteAt_shift (v : Block128) {k : Nat} (hk0 : k ≠ 0) (hk : k < 16) :
    byteAt (v >>> 1) k = byteAt v k >>> 1 ||| (byteAt v (k - 1) &&& 1#8) <<< 7 := by
  refine BitVec.eq_of_getLsbD_eq fun i hi => ?_
  simp only [getLsbD_byteAt, BitVec.getLsbD_ushiftRight, BitVec.getLsbD_or, BitVec.getLsbD_shiftLeft,
    BitVec.getLsbD_and, BitVec.getLsbD_one]
  by_cases hlast : i = 7
  · subst hlast
    simp [show 1 + (8 * (15 - k) + 7) = 8 * (15 - (k - 1)) by omega]
  · rw [show 1 + (8 * (15 - k) + i) = 8 * (15 - k) + (1 + i) by omega]
    simp [show i < 8 from hi, show 1 + i < 8 by omega, show i < 7 by omega]

theorem toBytes_shift (v : Block128) : toBytes (v >>> 1) = shiftBytes (toBytes v) := by
  ext1 k hk
  by_cases hk0 : k = 0
  · subst hk0
    simp [shiftBytes, byteAt_shift_first]
  · simp [shiftBytes, hk0, byteAt_shift v hk0 hk]

theorem byteAt_reduction : ∀ k < 16, byteAt reduction k = if k = 0 then 0xE1#8 else 0#8 := by decide

theorem toBytes_xor_reduction (v : Block128) :
    toBytes (v ^^^ reduction) = (toBytes v).set 0 ((toBytes v)[0] ^^^ 0xE1#8) := by
  ext1 k hk
  rw [getElem_toBytes, byteAt_xor, byteAt_reduction k hk, Vector.getElem_set]
  by_cases hk0 : k = 0
  · subst hk0
    simp
  · simp [hk0, Ne.symm hk0]

/-- How R100 tests a bit of a byte: shifted down to bit 0 and masked. -/
theorem byte_bit_eq_one_iff (x : Byte) (j : Nat) : (x >>> j) &&& 1#8 = 1#8 ↔ x.getLsbD j = true := by
  rw [BitVec.and_one_eq_setWidth_ofBool_getLsbD, BitVec.getLsbD_ushiftRight, Nat.add_zero]
  cases x.getLsbD j <;> decide

theorem lastByte_odd_iff (v : Block128) : byteAt v 15 &&& 1#8 = 1#8 ↔ v.getLsbD 0 = true := by
  rw [← BitVec.ushiftRight_zero (byteAt v 15), byte_bit_eq_one_iff, getLsbD_byteAt]
  rfl

theorem dbl_eq (v : Block128) : dbl v = if v.getLsbD 0 then v >>> 1 ^^^ reduction else v >>> 1 := by
  unfold dbl
  split <;> simp

theorem toBytes_dbl (v : Block128) : toBytes (dbl v) = dblBytes (toBytes v) := by
  rw [dbl_eq, dblBytes, getElem_toBytes, ← toBytes_shift]
  simp only [lastByte_odd_iff]
  split
  · exact toBytes_xor_reduction _
  · rfl

theorem byteAt_dbl_first {v : Block128} (hv : v.getLsbD 0 = true) :
    byteAt (dbl v) 0 = 0xE1#8 ^^^ (byteAt v 0 >>> 1) := by
  rw [dbl_eq, if_pos hv, byteAt_xor, byteAt_shift_first, byteAt_reduction 0 (by decide), if_pos rfl, BitVec.xor_comm]

/-- Settles O26: the shift moves a bit across each byte boundary (`toBytes_shift`), the reduction meets byte 0 alone, and the
shifted byte 0 has no bit 7. -/
theorem doublingMatchesBytes : Obligations.DoublingMatchesBytes := by
  refine fun v => ⟨toBytes_dbl v, fun hv => ⟨byteAt_dbl_first hv, ?_⟩⟩
  rw [byteAt_dbl_first hv]
  simp

/-! ## The loop on bytes -/

theorem bitOfBytes_toBytes (x : Block128) {i : Nat} (hi : i < 128) :
    bitOfBytes (toBytes x) i = 1#8 ↔ pbit x i = true := by
  have hbyte : (toBytes x).toList.getD (i / 8) 0 = byteAt x (i / 8) := by
    have hk : i / 8 < 16 := by omega
    simp [hk]
  rw [bitOfBytes, hbyte, byte_bit_eq_one_iff, (bitPositions x i hi).1]

theorem toBytes_xor (a b : Block128) :
    toBytes (a ^^^ b) = Vector.ofFn fun k => (toBytes a)[k.val] ^^^ (toBytes b)[k.val] := by
  ext1 k hk
  simp [byteAt_xor]

theorem toBytes_zero : toBytes ZERO = Vector.replicate 16 0 := by decide

theorem mulAfterBytes_toBytes (x h : Block128) {n : Nat} (hn : n ≤ 128) :
    mulAfterBytes (toBytes x) (toBytes h) n = ⟨toBytes (mulAfter x h n).z, toBytes (mulAfter x h n).v⟩ := by
  induction n with
  | zero => rw [mulAfterBytes, mulAfter_zero, toBytes_zero]
  | succ n ih =>
    rw [mulAfterBytes, ih (by omega), mulBodyBytes, mulAfter_succ, mulBody_v, mulBody_z, toBytes_dbl]
    simp only [bitOfBytes_toBytes x (show n < 128 from hn)]
    split
    · rw [toBytes_xor]
    · rfl

/-- Settles O25: the two loops hold the same values after every iteration. -/
theorem gfmulMatchesByteAlgorithm : Obligations.GfmulMatchesByteAlgorithm := by
  intro x h
  rw [gfmulBytes, mulAfterBytes_toBytes x h le_rfl, gfmul_eq]

/-! ## The command -/

/-- Settles O5: the decoder reads A and B, and `exec_gfmul` is the equation with its frame. -/
theorem gfmulAnswersProduct : Obligations.GfmulAnswersProduct :=
  fun a b len s => ⟨(decode_mkWord_code .gfmul len a b).trans (by rw [readAs, aOf_mkWord, bOf_mkWord]), exec_gfmul a b s⟩

end Sys2Proof.Machine
end

section
/-! PROOF. The multiplier as the product of GF(2)[X] / (X^128 + X^7 + X^2 + X + 1): a block stands for a polynomial, its bit
position p for the coefficient of X^p (R11), xor for the sum and `gfmul` for the product; the laws R106 to R111 are those of
that ring. -/

namespace Sys2Proof.Machine

open Polynomial

/-! ## Blocks as polynomials -/

/-- What X^128 reduces to: the polynomial of the reduction byte (R101). -/
noncomputable def reductionPoly : (ZMod 2)[X] := X ^ 7 + X ^ 2 + X + 1

/-- The field polynomial (R100). -/
noncomputable def fieldPoly : (ZMod 2)[X] := X ^ 128 + reductionPoly

/-- The polynomial of the first `n` bit positions of a block (R11). -/
noncomputable def blockPoly (b : Block128) (n : Nat) : (ZMod 2)[X] :=
  ∑ p ∈ Finset.range n, if pbit b p then X ^ p else 0

/-- The element of the quotient ring that a block stands for. -/
noncomputable def toField (b : Block128) : AdjoinRoot fieldPoly := AdjoinRoot.mk fieldPoly (blockPoly b 128)

theorem poly_add_self (f : (ZMod 2)[X]) : f + f = 0 := CharTwo.add_self_eq_zero f

theorem blockPoly_succ (b : Block128) (n : Nat) :
    blockPoly b (n + 1) = blockPoly b n + if pbit b n then X ^ n else 0 := Finset.sum_range_succ _ n

theorem coeff_blockPoly (b : Block128) (n p : Nat) :
    (blockPoly b n).coeff p = if p < n ∧ pbit b p = true then 1 else 0 := by
  induction n with
  | zero => simp [blockPoly]
  | succ n ih =>
    rw [blockPoly_succ, coeff_add, ih]
    by_cases hp : p = n
    · subst hp
      cases pbit b p <;> simp
    · have hlt : p < n + 1 ↔ p < n := by omega
      cases pbit b n <;> simp [hlt, coeff_X_pow, hp]

theorem degree_blockPoly_lt (b : Block128) (n : Nat) : (blockPoly b n).degree < n := by
  rw [degree_lt_iff_coeff_zero]
  intro p hp
  rw [coeff_blockPoly, if_neg (by omega)]

theorem ite_xor_eq_add (a b : Bool) (f : (ZMod 2)[X]) :
    (if (a ^^ b) then f else 0) = (if a then f else 0) + if b then f else 0 := by
  cases a
  · simp
  · cases b <;> simp [poly_add_self]

theorem blockPoly_xor (a b : Block128) (n : Nat) : blockPoly (a ^^^ b) n = blockPoly a n + blockPoly b n := by
  rw [blockPoly, blockPoly, blockPoly, ← Finset.sum_add_distrib]
  exact Finset.sum_congr rfl fun p _ => by rw [pbit_xor, ite_xor_eq_add]

theorem pbit_bitBlock {p q : Nat} (hp : p < 128) (hq : q < 128) : pbit (bitBlock p) q = decide (q = p) := by
  rw [pbit, bitBlock, show ONE = BitVec.twoPow 128 127 by decide, BitVec.getLsbD_ushiftRight, BitVec.getLsbD_twoPow]
  exact decide_eq_decide.mpr (by omega)

theorem bitBlock_zero : bitBlock 0 = ONE := BitVec.ushiftRight_zero ONE

theorem blockPoly_bitBlock {p : Nat} (hp : p < 128) : blockPoly (bitBlock p) 128 = X ^ p := by
  ext q
  rw [coeff_blockPoly, coeff_X_pow]
  by_cases hq : q < 128
  · simp [hq, pbit_bitBlock hp hq]
  · simp [hq, show q ≠ p by omega]

theorem eq_of_pbit_eq {a b : Block128} (h : ∀ p < 128, pbit a p = pbit b p) : a = b := by
  refine BitVec.eq_of_getLsbD_eq fun i hi => ?_
  have hbit := h (127 - i) (by omega)
  rwa [pbit, pbit, show 127 - (127 - i) = i by omega] at hbit

theorem pbit_eq_coeff (b : Block128) {p : Nat} (hp : p < 128) :
    pbit b p = decide ((blockPoly b 128).coeff p = 1) := by
  rw [coeff_blockPoly]
  cases pbit b p <;> simp [hp]

theorem eq_of_blockPoly_eq {a b : Block128} (h : blockPoly a 128 = blockPoly b 128) : a = b :=
  eq_of_pbit_eq fun p hp => by rw [pbit_eq_coeff a hp, pbit_eq_coeff b hp, h]

/-! ## Doubling is multiplication by X -/

@[simp] theorem pbit_shift_zero (v : Block128) : pbit (v >>> 1) 0 = false := by simp [pbit]

theorem pbit_shift_succ (v : Block128) {p : Nat} (hp : p < 127) : pbit (v >>> 1) (p + 1) = pbit v p := by
  rw [pbit, pbit, BitVec.getLsbD_ushiftRight, show 1 + (127 - (p + 1)) = 127 - p by omega]

theorem blockPoly_shift (v : Block128) : blockPoly (v >>> 1) 128 = X * blockPoly v 127 := by
  ext p
  cases p with
  | zero => simp [coeff_blockPoly]
  | succ p =>
    rw [coeff_X_mul, coeff_blockPoly, coeff_blockPoly]
    by_cases hp : p < 127
    · have hp' : p + 1 < 128 := by omega
      simp [hp, hp', pbit_shift_succ v hp]
    · have hp' : ¬ p + 1 < 128 := by omega
      simp [hp, hp']

theorem reduction_eq_xor : reduction = bitBlock 7 ^^^ bitBlock 2 ^^^ bitBlock 1 ^^^ bitBlock 0 := by decide

theorem blockPoly_reduction : blockPoly reduction 128 = reductionPoly := by
  simp [reduction_eq_xor, blockPoly_xor, blockPoly_bitBlock, reductionPoly]

/-- In characteristic 2 the leading term of the field polynomial cancels what the shift would move to X^128. -/
theorem X_mul_add_reductionPoly (f : (ZMod 2)[X]) :
    X * f + reductionPoly = X * (f + X ^ 127) + fieldPoly := by
  unfold fieldPoly
  linear_combination -poly_add_self (X ^ 128)

/-- The shift moves each coefficient up; the coefficient of X^127 falls off, and the reduction brings it back. -/
theorem blockPoly_dbl (v : Block128) :
    blockPoly (dbl v) 128 = X * blockPoly v 128 + if pbit v 127 then fieldPoly else 0 := by
  have hdbl : dbl v = if pbit v 127 then v >>> 1 ^^^ reduction else v >>> 1 := dbl_eq v
  rw [hdbl, blockPoly_succ v 127]
  cases pbit v 127
  · simp [blockPoly_shift]
  · rewrite [if_pos rfl, if_pos rfl, if_pos rfl, blockPoly_xor, blockPoly_shift, blockPoly_reduction]
    exact X_mul_add_reductionPoly _

theorem toField_dbl (v : Block128) : toField (dbl v) = AdjoinRoot.root fieldPoly * toField v := by
  rw [toField, blockPoly_dbl, map_add, map_mul, AdjoinRoot.mk_X, ← toField, apply_ite (AdjoinRoot.mk fieldPoly),
    AdjoinRoot.mk_self, map_zero, ite_self, add_zero]

theorem toField_iterate_dbl (v : Block128) (n : Nat) :
    toField (dbl^[n] v) = AdjoinRoot.root fieldPoly ^ n * toField v := by
  induction n with
  | zero => simp
  | succ n ih => rw [Function.iterate_succ_apply', toField_dbl, ih, pow_succ', mul_assoc]

/-! ## The product -/

@[simp] theorem toField_xor (a b : Block128) : toField (a ^^^ b) = toField a + toField b := by
  rw [toField, blockPoly_xor, map_add, ← toField, ← toField]

theorem toField_bitBlock {p : Nat} (hp : p < 128) : toField (bitBlock p) = AdjoinRoot.root fieldPoly ^ p := by
  rw [toField, blockPoly_bitBlock hp, map_pow, AdjoinRoot.mk_X]

@[simp] theorem toField_zero : toField ZERO = 0 := by simp [toField, blockPoly]

@[simp] theorem toField_one : toField ONE = 1 := by
  rw [← bitBlock_zero, toField_bitBlock (by decide), pow_zero]

theorem toField_xblk : toField XBLK = AdjoinRoot.root fieldPoly := by
  rw [show XBLK = bitBlock 1 from rfl, toField_bitBlock (by decide), pow_one]

/-- After n iterations z is the product of the part of x scanned so far. -/
theorem toField_mulAfter_z (x h : Block128) (n : Nat) :
    toField (mulAfter x h n).z = AdjoinRoot.mk fieldPoly (blockPoly x n) * toField h := by
  induction n with
  | zero => simp [blockPoly]
  | succ n ih =>
    rw [mulAfter_z_succ, blockPoly_succ]
    cases pbit x n
    · simpa using ih
    · simp [ih, toField_iterate_dbl, add_mul]

@[simp] theorem toField_gfmul (x h : Block128) : toField (gfmul x h) = toField x * toField h := by
  rw [gfmul_eq, toField_mulAfter_z, ← toField]

/-! ## Different blocks are different elements -/

theorem natDegree_fieldPoly : fieldPoly.natDegree = 128 := by
  unfold fieldPoly reductionPoly
  compute_degree!

theorem monic_fieldPoly : fieldPoly.Monic := by
  unfold fieldPoly reductionPoly
  monicity!

theorem fieldPoly_ne_zero : fieldPoly ≠ 0 := monic_fieldPoly.ne_zero

theorem blockPoly_modByMonic (b : Block128) : blockPoly b 128 %ₘ fieldPoly = blockPoly b 128 := by
  rw [modByMonic_eq_self_iff monic_fieldPoly, degree_eq_natDegree fieldPoly_ne_zero, natDegree_fieldPoly]
  exact degree_blockPoly_lt b 128

/-- The polynomial of a block has a degree below 128, so it is the remainder that represents its class. -/
theorem toField_injective : Function.Injective toField := by
  intro a b hab
  have hmod := congrArg (AdjoinRoot.modByMonicHom monic_fieldPoly) hab
  rw [toField, toField, AdjoinRoot.modByMonicHom_mk, AdjoinRoot.modByMonicHom_mk, blockPoly_modByMonic,
    blockPoly_modByMonic] at hmod
  exact eq_of_blockPoly_eq hmod

/-! ## The laws of the ring -/

theorem gfmul_comm (x h : Block128) : gfmul x h = gfmul h x :=
  toField_injective (by rw [toField_gfmul, toField_gfmul, mul_comm])

theorem gfmul_assoc (a b c : Block128) : gfmul (gfmul a b) c = gfmul a (gfmul b c) :=
  toField_injective (by simp only [toField_gfmul, mul_assoc])

@[simp] theorem gfmul_one_right (x : Block128) : gfmul x ONE = x :=
  toField_injective (by rw [toField_gfmul, toField_one, mul_one])

@[simp] theorem gfmul_one_left (x : Block128) : gfmul ONE x = x := by rw [gfmul_comm, gfmul_one_right]

@[simp] theorem gfmul_zero_left (x : Block128) : gfmul ZERO x = ZERO := by rw [gfmul_comm, gfmul_zero_right]

theorem gfmul_xor_left (a b c : Block128) : gfmul (a ^^^ b) c = gfmul a c ^^^ gfmul b c :=
  toField_injective (by simp only [toField_gfmul, toField_xor, add_mul])

theorem gfmul_xor_right (a b c : Block128) : gfmul c (a ^^^ b) = gfmul c a ^^^ gfmul c b := by
  rw [gfmul_comm, gfmul_xor_left, gfmul_comm a, gfmul_comm b]

theorem dbl_xor (a b : Block128) : dbl (a ^^^ b) = dbl a ^^^ dbl b :=
  toField_injective (by simp only [toField_dbl, toField_xor, mul_add])

theorem gfmul_bitBlock {p : Nat} (hp : p < 128) (b : Block128) : gfmul (bitBlock p) b = dbl^[p] b :=
  toField_injective (by rw [toField_gfmul, toField_bitBlock hp, toField_iterate_dbl])

theorem gfmul_xblk (b : Block128) : gfmul XBLK b = dbl b := gfmul_bitBlock (p := 1) (by decide) b

/-- Settles O28: the doubled ZERO stays ZERO (`gfmul_zero_right`), and the product commutes. -/
theorem multiplyByZero : Obligations.MultiplyByZero := fun x => ⟨gfmul_zero_right x, gfmul_zero_left x⟩

/-- Settles O29: ONE stands for the 1 of the ring. -/
theorem multiplyByOne : Obligations.MultiplyByOne := fun x => ⟨gfmul_one_left x, gfmul_one_right x⟩

/-- Settles O30: the ring is commutative, and different blocks are different elements of it. -/
theorem multiplyCommutes : Obligations.MultiplyCommutes := gfmul_comm

/-- Settles O31: xor is the ring's addition, and doubling its multiplication by X. -/
theorem multiplyLinear : Obligations.MultiplyLinear :=
  fun a b c => ⟨gfmul_xor_left a b c, gfmul_xor_right a b c, dbl_xor a b⟩

/-- Settles O32: the ring's multiplication is associative. -/
theorem multiplyAssociates : Obligations.MultiplyAssociates := gfmul_assoc

/-- Settles O34: bit position p stands for X^p, and XBLK is bit position 1. -/
theorem singleBitOperands : Obligations.SingleBitOperands :=
  ⟨fun _ b hp => gfmul_bitBlock hp b, fun b => ⟨gfmul_xblk b, (gfmul_comm b XBLK).trans (gfmul_xblk b)⟩⟩

end Sys2Proof.Machine
end

section
/-! PROOF. Every non-zero block has an inverse (R110): the field polynomial is irreducible by Rabin's test, with X squared
repeatedly by the multiplier itself, so the quotient ring is a field. -/

namespace Sys2Proof.Machine

open Polynomial

/-! ## The product computed on numbers -/

/-- `f v`, but evaluated with `v` computed first: the split on `v` demands its value. -/
def withValue {α : Type} (f : Nat → α) : Nat → α
  | 0 => f 0
  | n + 1 => f (n + 1)

/-- The last `n` iterations of the multiplier on the values of z and v: a form that evaluates fast. -/
def productNat (x : Nat) : Nat → Nat → Nat → Nat
  | 0, z, _ => z
  | n + 1, z, v =>
    withValue (fun v => productNat x n (Nat.xor z (v * (x / 2 ^ n % 2)))
      (Nat.xor (v / 2) (v % 2 * 0xe1000000000000000000000000000000))) v

/-- `n` squarings of a block's value. -/
def squaresNat : Nat → Nat → Nat
  | 0, x => x
  | n + 1, x => withValue (squaresNat n) (productNat x 128 0 x)

/-- The product of a block with itself. -/
def square (b : Block128) : Block128 := gfmul b b

theorem withValue_eq {α : Type} (f : Nat → α) (v : Nat) : withValue f v = f v := by
  cases v <;> rfl

theorem toNat_dbl (v : Block128) :
    (dbl v).toNat = Nat.xor (v.toNat / 2) (v.toNat % 2 * 0xe1000000000000000000000000000000) := by
  have hbit : v.toNat % 2 = (v.getLsbD 0).toNat := by rw [BitVec.getLsbD, Nat.toNat_testBit, pow_zero, Nat.div_one]
  rw [hbit, dbl, BitVec.toNat_xor, BitVec.toNat_ushiftRight, Nat.shiftRight_one]
  cases v.getLsbD 0 <;> rfl

theorem toNat_mulBody_z (x : Block128) {n : Nat} (hn : n < 128) (m : MulState) :
    (mulBody x (127 - n) m).z.toNat = Nat.xor m.z.toNat (m.v.toNat * (x.toNat / 2 ^ n % 2)) := by
  have hbit : x.toNat / 2 ^ n % 2 = (pbit x (127 - n)).toNat := by
    rw [pbit, show 127 - (127 - n) = n by omega, BitVec.getLsbD, Nat.toNat_testBit]
  rw [mulBody_z, hbit]
  cases pbit x (127 - n)
  · exact (Nat.xor_zero _).symm
  · rw [Bool.toNat_true, Nat.mul_one]
    exact BitVec.toNat_xor _ _

/-- The iterations that are left lead from the working values to the product. -/
theorem productNat_eq (x h : Block128) {n : Nat} (hn : n ≤ 128) :
    productNat x.toNat n (mulAfter x h (128 - n)).z.toNat (mulAfter x h (128 - n)).v.toNat = (gfmul x h).toNat := by
  induction n with
  | zero => rfl
  | succ n ih =>
    have hnext : mulAfter x h (128 - n) = mulBody x (127 - n) (mulAfter x h (127 - n)) := by
      rw [← mulAfter_succ, show 127 - n + 1 = 128 - n by omega]
    rw [show 128 - (n + 1) = 127 - n by omega, productNat, withValue_eq, ← toNat_dbl, ← toNat_mulBody_z x hn,
      ← mulBody_v x (127 - n), ← hnext, ih (by omega)]

theorem toNat_gfmul (x h : Block128) : (gfmul x h).toNat = productNat x.toNat 128 0 h.toNat :=
  (productNat_eq x h le_rfl).symm

theorem toNat_iterate_square (n : Nat) (b : Block128) : (square^[n] b).toNat = squaresNat n b.toNat := by
  induction n generalizing b with
  | zero => rfl
  | succ n ih => rw [Function.iterate_succ_apply, ih, square, toNat_gfmul, squaresNat, withValue_eq]

theorem iterate_square_eq {n : Nat} {a b : Block128} (h : squaresNat n a.toNat = b.toNat) : square^[n] a = b :=
  BitVec.eq_of_toNat_eq ((toNat_iterate_square n a).trans h)

/-! ## The field polynomial is irreducible -/

theorem toField_iterate_square (b : Block128) (n : Nat) : toField (square^[n] b) = toField b ^ 2 ^ n := by
  induction n with
  | zero => simp
  | succ n ih => rw [Function.iterate_succ_apply', square, toField_gfmul, ih, ← pow_add, ← two_mul, ← pow_succ']

/-- X^(2^64) as a block. -/
theorem iterate_square_64 : square^[64] XBLK = 0x6f9945a9e519a7229d4c1ad657f8a686 := by
  have h32 : square^[32] XBLK = 0x54a0a9601f5eee84180dcbba9950b41e := iterate_square_eq (by decide)
  rw [show 64 = 32 + 32 from rfl, Function.iterate_add_apply, h32]
  exact iterate_square_eq (by decide)

/-- X^(2^128) is X. -/
theorem iterate_square_128 : square^[128] XBLK = XBLK := by
  have h96 : square^[32] 0x6f9945a9e519a7229d4c1ad657f8a686 = (0xdebb046b71ae153b531960a283fb4702 : Block128) :=
    iterate_square_eq (by decide)
  rw [show 128 = 32 + (32 + 64) from rfl, Function.iterate_add_apply, Function.iterate_add_apply, iterate_square_64, h96]
  exact iterate_square_eq (by decide)

theorem mk_pow_sub_X (n : Nat) :
    AdjoinRoot.mk fieldPoly (X ^ Nat.card (ZMod 2) ^ n - X) = toField (square^[n] XBLK ^^^ XBLK) := by
  rw [Nat.card_zmod, CharTwo.sub_eq_add, map_add, map_pow, AdjoinRoot.mk_X, toField_xor, toField_iterate_square,
    toField_xblk]

theorem fieldPoly_dvd_X_pow_sub_X : fieldPoly ∣ X ^ Nat.card (ZMod 2) ^ 128 - X := by
  rw [← AdjoinRoot.mk_eq_zero, mk_pow_sub_X, iterate_square_128, BitVec.xor_self, toField_zero]

/-- The inverse of X^(2^64) - X as a block. -/
def halfwayInverse : Block128 := 0x180da934bf53158251c13dbb149f5279

/-- X^(2^64) - X is a unit. -/
theorem gfmul_halfwayInverse : gfmul (square^[64] XBLK ^^^ XBLK) halfwayInverse = ONE := by
  rw [iterate_square_64]
  decide

theorem isCoprime_fieldPoly : IsCoprime fieldPoly (X ^ Nat.card (ZMod 2) ^ 64 - X) := by
  have h := congrArg toField gfmul_halfwayInverse
  rw [toField_gfmul, ← mk_pow_sub_X, toField_one, toField, ← map_mul, ← map_one (AdjoinRoot.mk fieldPoly),
    AdjoinRoot.mk_eq_mk] at h
  obtain ⟨q, hq⟩ := h
  exact ⟨-q, blockPoly halfwayInverse 128, by linear_combination hq⟩

/-- Rabin's argument: the degree of a factor divides 128, and one that divided 64 would make the factor divide a unit. -/
theorem natDegree_factor {g : (ZMod 2)[X]} (hg : Irreducible g) (hdvd : g ∣ fieldPoly) : g.natDegree = 128 := by
  have hdeg : g.natDegree ∣ 2 ^ 7 := hg.natDegree_dvd_of_dvd_X_pow_card_pow_sub_X (hdvd.trans fieldPoly_dvd_X_pow_sub_X)
  obtain ⟨k, hk, hgk⟩ := (Nat.dvd_prime_pow Nat.prime_two).mp hdeg
  by_contra hne
  have hk7 : k ≠ 7 := fun h7 => hne (by rw [hgk, h7]; rfl)
  have hk6 : k ≤ 6 := by omega
  have hhalf : g ∣ X ^ Nat.card (ZMod 2) ^ 64 - X :=
    hg.natDegree_dvd_iff_dvd_X_pow_card_pow_sub_X.mp (hgk ▸ pow_dvd_pow 2 hk6)
  exact hg.not_isUnit (isCoprime_fieldPoly.isUnit_of_dvd' hdvd hhalf)

theorem irreducible_fieldPoly : Irreducible fieldPoly := by
  obtain ⟨g, hg, hdvd⟩ := exists_irreducible_of_natDegree_pos (f := fieldPoly) (by rw [natDegree_fieldPoly]; decide)
  have hdeg : fieldPoly.natDegree ≤ g.natDegree := by rw [natDegree_fieldPoly, natDegree_factor hg hdvd]
  exact (associated_of_dvd_of_natDegree_le hdvd fieldPoly_ne_zero hdeg).irreducible hg

/-! ## Inverses -/

theorem gfmul_right_cancel {a b h : Block128} (hh : h ≠ ZERO) (hab : gfmul a h = gfmul b h) : a = b := by
  have : Fact (Irreducible fieldPoly) := ⟨irreducible_fieldPoly⟩
  have hne : toField h ≠ 0 := fun h0 => hh (toField_injective (h0.trans toField_zero.symm))
  have hmul := congrArg toField hab
  rw [toField_gfmul, toField_gfmul] at hmul
  exact toField_injective (mul_right_cancel₀ hne hmul)

theorem existsUnique_inverse {h : Block128} (hh : h ≠ ZERO) : ∃! g : Block128, gfmul h g = ONE := by
  have hinj : Function.Injective (gfmul · h) := fun _ _ => gfmul_right_cancel hh
  obtain ⟨g, hg⟩ : ∃ g, gfmul g h = ONE := Finite.surjective_of_injective hinj ONE
  refine ⟨g, (gfmul_comm h g).trans hg, fun g' hg' => hinj ?_⟩
  exact ((gfmul_comm g' h).trans hg').trans hg.symm

/-- Settles O33: the quotient ring is a field, so a non-zero factor cancels; multiplying by it is then injective on the
finitely many blocks, and so reaches ONE. -/
theorem nonzeroBlocksInvertible : Obligations.NonzeroBlocksInvertible :=
  fun _ hh => ⟨existsUnique_inverse hh, fun _ _ => gfmul_right_cancel hh⟩

end Sys2Proof.Machine
end

section
/-! PROOF. GHASH (42_ghash_step.md): the command STEP (R120), runs of it (R122, R123), and what one step does to its values
(R125, R126). -/

namespace Sys2Proof.Machine

/-! ## One step on blocks -/

theorem absorb_eq (h acc d : Block128) : absorb h acc d = gfmul (acc ^^^ d) h := rfl

@[simp] theorem absorb_self (h acc : Block128) : absorb h acc acc = ZERO := by
  rw [absorb_eq, BitVec.xor_self, gfmul_zero_left]

@[simp] theorem absorb_zero_acc (h d : Block128) : absorb h ZERO d = gfmul d h := by rw [absorb_eq, BitVec.zero_xor]

@[simp] theorem absorb_zero_block (h acc : Block128) : absorb h acc ZERO = gfmul acc h := by
  rw [absorb_eq, BitVec.xor_zero]

@[simp] theorem absorb_one_subkey (acc d : Block128) : absorb ONE acc d = acc ^^^ d := gfmul_one_right _

theorem absorb_absorb_zero_acc (h a b : Block128) : absorb h (absorb h ZERO a) b = gfmul (gfmul a h ^^^ b) h := by
  rw [absorb_zero_acc, absorb_eq]

/-- The accumulator cancels: the product is linear in its first operand. -/
theorem absorb_xor_absorb (h acc a b : Block128) : absorb h acc a ^^^ absorb h acc b = gfmul (a ^^^ b) h := by
  have hcancel : acc ^^^ a ^^^ (acc ^^^ b) = a ^^^ b := by
    rw [BitVec.xor_comm acc a, BitVec.xor_assoc, ← BitVec.xor_assoc acc acc, BitVec.xor_self, BitVec.zero_xor]
  rw [absorb_eq, absorb_eq, ← gfmul_xor_left, hcancel]

/-! ## A non-zero subkey -/

section NonzeroSubkey

variable {h : Block128} (hh : h ≠ ZERO)
include hh

theorem absorb_right_cancel {acc a b : Block128} (hab : absorb h acc a = absorb h acc b) : a = b :=
  (BitVec.xor_right_inj acc).mp (gfmul_right_cancel hh hab)

/-- Multiplying by a non-zero block is injective on the finitely many blocks, so it reaches every one. -/
theorem exists_gfmul_eq (c : Block128) : ∃ a : Block128, gfmul a h = c :=
  Finite.surjective_of_injective (f := (gfmul · h)) (fun _ _ => gfmul_right_cancel hh) c

/-- Two blocks can be found whose results differ by any given difference. -/
theorem exists_absorb_xor_eq (acc : Block128) {c : Block128} (hc : c ≠ ZERO) :
    ∃ a b : Block128, a ≠ b ∧ absorb h acc a ^^^ absorb h acc b = c := by
  obtain ⟨a, ha⟩ := exists_gfmul_eq hh c
  refine ⟨a, ZERO, ?_, by rw [absorb_xor_absorb, BitVec.xor_zero, ha]⟩
  rintro rfl
  exact hc (ha.symm.trans (gfmul_zero_left h))

end NonzeroSubkey

theorem byteAt_one_eq_zero : ∀ k < 15, byteAt 1#128 k = 0#8 := by decide

/-- Blocks that differ in their last bit only agree on every shorter prefix. -/
theorem verify_of_xor_eq_one {c e : Block128} (hce : c ^^^ e = 1#128) {n : Nat} (hn : n < 16) : verify c e n = true := by
  refine (verify_iff_prefix c e n).mpr fun k hk => BitVec.xor_eq_zero_iff.mp ?_
  rw [← byteAt_xor, hce, byteAt_one_eq_zero k (by omega)]

/-- No prefix of the result below the whole block tells all blocks apart: aim at a difference in the last bit. -/
theorem exists_prefix_collision {h : Block128} (hh : h ≠ ZERO) (acc : Block128) {n : Nat} (hn : n < 16) :
    ∃ a b : Block128, a ≠ b ∧ verify (absorb h acc a) (absorb h acc b) n = true := by
  obtain ⟨a, b, hne, hdiff⟩ := exists_absorb_xor_eq hh acc (c := 1#128) (by decide)
  exact ⟨a, b, hne, verify_of_xor_eq_one hdiff hn⟩

/-! ## The hash of a list of blocks -/

@[simp] theorem ghash_nil (h : Block128) : ghash h [] = ZERO := rfl

theorem ghash_concat (h d : Block128) (ds : List Block128) : ghash h (ds ++ [d]) = absorb h (ghash h ds) d :=
  List.foldl_concat ..

theorem ghash_singleton (h d : Block128) : ghash h [d] = gfmul d h := absorb_zero_acc h d

/-- Steps from any accumulator: it counts as one more block in front, with h to the power n. -/
theorem foldl_absorb_eq (h acc : Block128) (ds : List Block128) :
    ds.foldl (absorb h) acc = gfmul acc (blockPow h ds.length) ^^^ ghashPoly h ds := by
  induction ds generalizing acc with
  | nil => exact ((BitVec.xor_zero).trans (gfmul_one_right acc)).symm
  | cons d ds ih =>
    have hpow : gfmul h (blockPow h ds.length) = blockPow h (ds.length + 1) := gfmul_comm _ _
    calc (d :: ds).foldl (absorb h) acc
        = gfmul (absorb h acc d) (blockPow h ds.length) ^^^ ghashPoly h ds := ih (absorb h acc d)
      _ = gfmul (acc ^^^ d) (blockPow h (ds.length + 1)) ^^^ ghashPoly h ds := by rw [absorb_eq, gfmul_assoc, hpow]
      _ = gfmul acc (blockPow h (ds.length + 1)) ^^^ ghashPoly h (d :: ds) := by
        rw [gfmul_xor_left, BitVec.xor_assoc, ghashPoly]

/-! ## Runs of commands -/

theorem runCommands_step (d : Block128) (is : List Instr) (s : State) :
    runCommands (.step d :: is) s =
      runCommands is
        (answer ⟨statusOk, 0x00, absorb s.h s.acc d⟩ (writeAcc (absorb s.h s.acc d) (transfer s))) := by
  rw [runCommands_cons_exec, exec_step, andThen_next, transfer_h, transfer_acc]

/-- SETH and INIT leave the registers that a hash starts from, whatever runs after them. -/
theorem runCommands_seth_init (h : Block128) (s : State) :
    ∃ u : State,
      (∀ is : List Instr, runCommands (.seth h :: .init :: is) s = runCommands is u) ∧
        u.h = h ∧ u.acc = ZERO ∧
          u.responses ++ pending u =
            s.responses ++ pending s ++ [⟨statusOk, 0x00, ZERO⟩, ⟨statusOk, 0x00, ZERO⟩] := by
  refine ⟨answer ⟨statusOk, 0x00, ZERO⟩
    (writeAcc ZERO (transfer (answer ⟨statusOk, 0x00, ZERO⟩ (writeH h (transfer s))))), fun is => ?_, rfl, rfl, ?_⟩
  · rw [runCommands_cons_exec, exec_seth, andThen_next, runCommands_cons_exec, exec_init, andThen_next]
  · exact List.append_assoc _ [_] [_]

theorem runCommands_getacc (s : State) :
    runCommands [.getacc] s = .next (transfer (answer ⟨statusOk, 0x00, s.acc⟩ (transfer s))) := by
  rw [runCommands_cons_exec, exec_getacc, andThen_next, transfer_acc]
  exact runWords_nil _

/-- The responses of the steps that absorb the blocks given: each answers the accumulator it leaves. -/
def stepResponses (h acc : Block128) : List Block128 → List Response
  | [] => []
  | d :: ds => ⟨statusOk, 0x00, absorb h acc d⟩ :: stepResponses h (absorb h acc d) ds

theorem stepResponses_eq_map (h acc : Block128) (ds : List Block128) :
    stepResponses h acc ds =
      (List.range ds.length).map fun k => ⟨statusOk, 0x00, (ds.take (k + 1)).foldl (absorb h) acc⟩ := by
  induction ds generalizing acc with
  | nil => rfl
  | cons d ds ih =>
    rw [stepResponses, ih, List.length_cons, List.range_succ_eq_map, List.map_cons, List.map_map]
    rfl

theorem runCommands_steps_getacc (ds : List Block128) (s : State) :
    ∃ t : State,
      runCommands (ds.map .step ++ [.getacc]) s = .next t ∧
        t.h = s.h ∧ t.acc = ds.foldl (absorb s.h) s.acc ∧
          t.responses =
            s.responses ++ pending s ++
              (stepResponses s.h s.acc ds ++ [⟨statusOk, 0x00, ds.foldl (absorb s.h) s.acc⟩]) := by
  induction ds generalizing s with
  | nil => exact ⟨_, runCommands_getacc s, rfl, rfl, rfl⟩
  | cons d ds ih =>
    obtain ⟨t, hrun, hh, hacc, hresponses⟩ :=
      ih (answer ⟨statusOk, 0x00, absorb s.h s.acc d⟩ (writeAcc (absorb s.h s.acc d) (transfer s)))
    refine ⟨t, (runCommands_step d _ s).trans hrun, hh, hacc, hresponses.trans ?_⟩
    rw [answer_responses, answer_pending, writeAcc_responses, transfer_responses, List.append_assoc _ [_]]
    rfl

theorem runCommands_ghash_singleton (h d : Block128) (s : State) :
    ∃ t : State, runCommands [.seth h, .init, .step d] s = .next t ∧ t.acc = gfmul d h := by
  obtain ⟨u, hstart, huh, huacc, -⟩ := runCommands_seth_init h s
  rw [hstart, runCommands_step, huh, huacc, absorb_zero_acc]
  exact ⟨_, runWords_nil _, rfl⟩

/-! ## The statements -/

/-- Settles O35: SETH and INIT give the registers the steps start from, and the steps answer by induction on the blocks. -/
theorem ghashOverBlocks : Obligations.GhashOverBlocks := by
  refine ⟨ghash_nil, ghash_concat, fun h ds s => ?_⟩
  obtain ⟨u, hstart, huh, huacc, huresponses⟩ := runCommands_seth_init h s
  obtain ⟨t, hrun, hh, hacc, hresponses⟩ := runCommands_steps_getacc ds u
  rw [huh, huacc] at hacc
  rw [huresponses, huh, huacc, stepResponses_eq_map] at hresponses
  exact ⟨t, (hstart _).trans hrun, hh.trans huh, hacc, hresponses.trans (List.append_assoc _ _ _)⟩

/-- Settles O36: `foldl_absorb_eq` from ZERO, whose product is ZERO. -/
theorem ghashIsPolynomial : Obligations.GhashIsPolynomial := fun h ds =>
  (foldl_absorb_eq h ZERO ds).trans (by rw [gfmul_zero_left, BitVec.zero_xor])

/-- Settles O37: one step from ZERO absorbs the block alone, and GHASH1 is the GFMUL of the same operands. -/
theorem singleBlockHash : Obligations.SingleBlockHash := by
  intro h d s
  obtain ⟨t, hrun, hacc⟩ := runCommands_ghash_singleton h d s
  exact ⟨ghash_singleton h d, t, hrun, hacc, by rw [hacc]; exact exec_gfmul d h s⟩

/-- Settles O38: `exec_step`, a law of the product for each case, and two STEPs of ONE from H = ONE, ACC = ZERO. -/
theorem stepCornerCases : Obligations.StepCornerCases :=
  ⟨fun s a => exec_step a s,
    fun h acc a b =>
      ⟨absorb_zero_subkey acc a, absorb_self h acc, absorb_zero_acc h a, absorb_zero_block h acc, absorb_one_subkey acc a,
        absorb_absorb_zero_acc h a b⟩,
    ONE, ZERO, ONE, absorb_one_twice_ne⟩

/-- Settles O39: the results differ by the product of the blocks' difference, which for a non-zero H is ZERO for equal blocks
only and takes every value, that of a last bit among them. -/
theorem stepSensitivity : Obligations.StepSensitivity :=
  ⟨absorb_xor_absorb, fun _ acc hh =>
    ⟨fun _ _ => absorb_right_cancel hh, fun _ _ hn => exists_prefix_collision hh acc hn⟩⟩

/-- Settles O6: the decoder reads A alone, `exec_step` is the equation with its frame. -/
theorem stepAbsorbsBlock : Obligations.StepAbsorbsBlock :=
  fun a b len s =>
    ⟨(decode_mkWord_code .step len a b).trans (by rw [readAs, aOf_mkWord]), fun k _ => byteAt_xor s.acc a k,
      exec_step a s⟩

end Sys2Proof.Machine
end

section
/-! PROOF. The tag comparator (43_tag_comparator.md): the function `verify` (R130 to R132) and the command VERIFY (R134). -/

namespace Sys2Proof.Machine

/-! ## The running difference (R130) -/

/-- The running difference is the or of the byte differences, taken over the indices in order. -/
theorem diffAfter_eq_foldl (c e : Block128) (n : Nat) :
    diffAfter c e n = (List.range n).foldl (fun d k => d ||| (byteAt c k ^^^ byteAt e k)) 0 := by
  induction n with
  | zero => rfl
  | succ n ih => rw [diffAfter_succ, ih, List.range_succ, List.foldl_concat]

/-! ## Blocks by their bytes (R131) -/

@[simp] theorem byteAt_zero (k : Nat) : byteAt ZERO k = 0 := by simp [byteAt]

theorem eq_iff_byteAt_eq (a b : Block128) : a = b ↔ ∀ k < 16, byteAt a k = byteAt b k := by
  refine ⟨by rintro rfl _ _; rfl, fun h => ?_⟩
  have hbytes : toBytes a = toBytes b := Vector.ext fun k hk => by rw [getElem_toBytes, getElem_toBytes, h k hk]
  rw [← ofBytes_toBytes a, hbytes, ofBytes_toBytes]

/-- A shift by m whole bytes moves every byte m places on and fills with zero bytes. -/
theorem byteAt_shift_bytes (x : Block128) {m k : Nat} (hk : k < 16) :
    byteAt (x >>> (8 * m)) k = if k < m then 0 else byteAt x (k - m) := by
  refine BitVec.eq_of_getLsbD_eq fun i hi => ?_
  rw [getLsbD_byteAt, BitVec.getLsbD_ushiftRight]
  split_ifs with hkm
  · simp [BitVec.getLsbD_of_ge x (8 * m + (8 * (15 - k) + i)) (by omega)]
  · rw [getLsbD_byteAt, show 8 * m + (8 * (15 - k) + i) = 8 * (15 - (k - m)) + i by omega]

theorem shift_eq_zero_iff_prefix (x : Block128) {n : Nat} (hn : n ≤ 16) :
    x >>> (8 * (16 - n)) = ZERO ↔ ∀ k < n, byteAt x k = 0 := by
  rw [eq_iff_byteAt_eq]
  constructor
  · intro h k hk
    have hbyte := h (16 - n + k) (by omega)
    rwa [byteAt_shift_bytes x (by omega), if_neg (by omega), Nat.add_sub_cancel_left, byteAt_zero] at hbyte
  · intro h k hk
    rw [byteAt_shift_bytes x hk, byteAt_zero]
    split_ifs with hkn
    · rfl
    · exact h _ (by omega)

/-! ## Laws of `verify` (R131, R132) -/

theorem verify_iff_shift (a b : Block128) {n : Nat} (hn : n ≤ 16) :
    verify a b n = true ↔ (a ^^^ b) >>> (8 * (16 - n)) = ZERO := by
  simp only [verify_iff_prefix, shift_eq_zero_iff_prefix _ hn, byteAt_xor]
  exact forall₂_congr fun k _ => BitVec.xor_eq_zero_iff.symm

@[simp] theorem verify_self (a : Block128) (n : Nat) : verify a a n = true :=
  (verify_iff_prefix a a n).mpr fun _ _ => rfl

theorem verify_congr {a b a' b' : Block128} {n : Nat}
    (h : ∀ k < n, byteAt a' k = byteAt a k ∧ byteAt b' k = byteAt b k) : verify a' b' n = verify a b n := by
  rw [Bool.eq_iff_iff, verify_iff_prefix, verify_iff_prefix]
  refine forall₂_congr fun k hk => ?_
  obtain ⟨ha, hb⟩ := h k hk
  rw [ha, hb]

theorem verify_comm (a b : Block128) (n : Nat) : verify a b n = verify b a n := by
  rw [Bool.eq_iff_iff, verify_iff_prefix, verify_iff_prefix]
  exact forall₂_congr fun _ _ => eq_comm

theorem verify_of_le {a b : Block128} {m n : Nat} (hmn : m ≤ n) (h : verify a b n = true) : verify a b m = true :=
  (verify_iff_prefix a b m).mpr fun k hk => (verify_iff_prefix a b n).mp h k (hk.trans_le hmn)

theorem verify_sixteen_iff (a b : Block128) : verify a b 16 = true ↔ a = b :=
  (verify_iff_prefix a b 16).trans (eq_iff_byteAt_eq a b).symm

/-! ## The command VERIFY (R134) -/

theorem decode_verify (len : Byte) (a b : Block128) : decode (mkWord 0x07 len a b) = .ok (.verify a b len) :=
  (decode_mkWord_code .verify len a b).trans (by rw [readAs, aOf_mkWord, bOf_mkWord, lenOf_mkWord])

theorem flagByte_verify (a b : Block128) (n : Nat) :
    flagByte (verify a b n) = if ∀ k < n, byteAt a k = byteAt b k then 0x01 else 0x00 := by
  simp only [flagByte, verify_iff_prefix]

theorem verifyResponse_eq (a b : Block128) (len : Byte) :
    verifyResponse a b len =
      if len.toNat < 1 ∨ len.toNat > 16 then ⟨0x02, 0x00, ZERO⟩
      else ⟨0x00, if ∀ k < len.toNat, byteAt a k = byteAt b k then 0x01 else 0x00, ZERO⟩ := by
  have hillegal : len.toNat < 1 ∨ len.toNat > 16 ↔ ¬ lenLegal len = true := by rw [not_lenLegal_iff, Nat.lt_one_iff]
  rw [verifyResponse, if_congr hillegal rfl rfl, ite_not, flagByte_verify]
  rfl

/-! ## The statements -/

/-- Settles O7: the decoder reads all four fields, and `exec_verify` changes nothing but the response, which is
`verifyResponse_eq`. -/
theorem verifyComparesPrefix : Obligations.VerifyComparesPrefix := fun a b len s =>
  ⟨decode_verify len a b, by rw [exec_verify, verifyResponse_eq, answer]⟩

/-- Settles O40: the running difference is the or of all byte differences, zero exactly if every one of them is. -/
theorem verifyIffPrefixEqual : Obligations.VerifyIffPrefixEqual := fun c e n _ _ =>
  ⟨verify_iff_prefix c e n, by rw [verify_iff, diffAfter_eq_foldl]⟩

/-- Settles O41: the laws follow from the bytes compared; the shift leaves exactly those bytes. -/
theorem verifyLaws : Obligations.VerifyLaws := fun a b n _ hn =>
  ⟨verify_iff_shift a b hn, verify_self a n, verify_comm a b n, fun _ _ => verify_of_le, fun _ _ => verify_congr,
    by rintro rfl; exact verify_sixteen_iff a b⟩

end Sys2Proof.Machine
end

section
/-! PROOF. Rejections (60_exceptions.md): an illegal opcode (R153), a bad LEN (R154), runs of rejected words (R159), and that
every word, command and run has a next state (R166). -/

namespace Sys2Proof.Machine

/-! ## What R70 answers for a malformed word -/

/-- No code is 0 or above 7 (R66, R68). -/
theorem classify_of_op_range {c : CmdWord} (hop : (opOf c).toNat < 1 ∨ 7 < (opOf c).toNat) : classify c = .illegalOp := by
  obtain ⟨o, ho, -⟩ | ⟨-, hd⟩ := decode_cases c
  · have hcode := code_toNat_range o
    rw [ho] at hop
    omega
  · exact classify_of_error hd

theorem classify_of_bad_len {c : CmdWord} (hop : opOf c = 0x07) (hlen : ¬ lenLegal (lenOf c) = true) :
    classify c = .badLen := by
  have hopcode : opcodeOf (opOf c) = some .verify := by rw [hop]; exact opcodeOf_code .verify
  exact (classify_of_ok (decode_of_opcode hopcode)).trans (if_neg hlen)

/-! ## What the core answers to it -/

/-- The response to a VERIFY with a bad LEN (R154). -/
abbrev badLenResponse : Response := ⟨statusBadLen, 0x00, ZERO⟩

theorem exec_verify_bad_len (a b : Block128) {len : Byte} (hlen : ¬ lenLegal len = true) (s : State) :
    exec (.verify a b len) s = .next (answer badLenResponse s) := by
  rw [exec_verify, verifyResponse, if_neg hlen]

theorem exec_of_not_wf {i : Instr} (hi : ¬ i.wf = true) (s : State) : exec i s = .next (answer badLenResponse s) := by
  cases i with
  | verify a b len => exact exec_verify_bad_len a b hi s
  | gfmul | seth | init | setacc | step | getacc => exact absurd rfl hi

theorem runWord_of_illegalOp {c : CmdWord} (hc : classify c = .illegalOp) (s : State) :
    runWord c s = .next (answer illegalOpResponse s) := by
  cases hd : decode c with
  | error e => exact runWord_error hd s
  | ok i =>
    rw [classify_of_ok hd] at hc
    split_ifs at hc

theorem runWord_of_badLen {c : CmdWord} (hc : classify c = .badLen) (s : State) :
    runWord c s = .next (answer badLenResponse s) := by
  cases hd : decode c with
  | error e => exact nomatch (classify_of_error hd).symm.trans hc
  | ok i =>
    rw [classify_of_ok hd] at hc
    split_ifs at hc with hwf
    exact (runWord_ok hd s).trans (exec_of_not_wf hwf s)

/-- A word that is no command gets an error response and changes nothing else (R152). -/
theorem runWord_rejected {c : CmdWord} (hc : ∀ i, classify c ≠ .command i) (s : State) :
    ∃ r : Response, runWord c s = .next (answer r s) ∧ (r = illegalOpResponse ∨ r = badLenResponse) := by
  cases hclass : classify c with
  | command i => exact absurd hclass (hc i)
  | badLen => exact ⟨_, runWord_of_badLen hclass s, .inr rfl⟩
  | illegalOp => exact ⟨_, runWord_of_illegalOp hclass s, .inl rfl⟩

theorem runWord_verify_bad_len (a b : Block128) {len : Byte} (hlen : ¬ lenLegal len = true) (s : State) :
    runWord (mkWord 0x07 len a b) s = .next (answer badLenResponse s) :=
  (runWord_ok (decode_verify len a b) s).trans (exec_verify_bad_len a b hlen s)

/-- VERIFY of a block against itself, at any legal LEN. -/
theorem runWord_verify_self (a : Block128) {len : Byte} (hlen : lenLegal len = true) (s : State) :
    runWord (mkWord 0x07 len a a) s = .next (answer ⟨statusOk, 0x01, ZERO⟩ s) := by
  rw [runWord_ok (decode_verify len a a), exec_verify, verifyResponse, if_pos hlen, verify_self, flagByte_true]

/-! ## Every step answers -/

theorem step_answers (s : State) : ∃ t : State, step s = .next t := by
  obtain ⟨h, acc, port, events, responses⟩ := s
  cases events with
  | nil => exact ⟨_, rfl⟩
  | cons e es =>
    obtain ⟨t, ht⟩ := applyEvent_anyEvents e ⟨h, acc, port, es, responses⟩
    exact ⟨_, ht es⟩

theorem coreRun_answers (k : Nat) (s : State) : ∃ t : State, Host.Core.run core k s = .next t := by
  induction k generalizing s with
  | zero => exact ⟨s, rfl⟩
  | succ k ih =>
    obtain ⟨t, ht⟩ := step_answers s
    obtain ⟨u, hu⟩ := ih t
    exact ⟨u, (coreRun_succ ht k).trans hu⟩

/-! ## The statements -/

/-- Settles O44: what a word and a command can do is said by `runWord_cases` and `exec_eq`, and a run goes on by induction on
its steps. -/
theorem everyStepAnswers : Obligations.EveryStepAnswers := by
  refine ⟨fun c s => ?_, fun i s => ⟨_, exec_eq i s⟩, coreRun_answers⟩
  obtain ⟨r, h, acc, hrun⟩ := runWord_cases c s
  exact ⟨_, r, hrun, rfl⟩

/-- Settles O51, by induction on the words: the first is rejected (`runWord_rejected`), and the rest run from a state with the
same registers. -/
theorem rejectedRunsChangeNothing : Obligations.RejectedRunsChangeNothing := by
  intro cs
  induction cs with
  | nil =>
    intro s _
    exact ⟨transfer s, [], runWords_nil s, rfl, rfl, (List.append_nil _).symm, rfl, fun _ hr => nomatch hr⟩
  | cons c cs ih =>
    intro s hcs
    obtain ⟨hc, hrest⟩ := List.forall_mem_cons.mp hcs
    obtain ⟨r, hfirst, hr⟩ := runWord_rejected hc (transfer s)
    obtain ⟨t, rs, hrun, hh, hacc, hresponses, hlength, hrs⟩ := ih (answer r (transfer s)) hrest
    refine ⟨t, r :: rs, (runWords_cons_of_next hfirst cs).trans hrun, hh, hacc, ?_, congrArg (· + 1) hlength,
      List.forall_mem_cons.mpr ⟨hr, hrs⟩⟩
    rw [hresponses, answer_responses, answer_pending, transfer_responses, List.append_assoc _ [r], List.singleton_append]

/-- Settles O8: OP alone makes R70 answer an illegal opcode, whose rejection changes nothing but the response. -/
theorem illegalOpcodeRejected : Obligations.IllegalOpcodeRejected :=
  ⟨fun _ s hop => runWord_of_illegalOp (classify_of_op_range hop) s,
    runWord_of_illegalOp (classify_of_op_range (by decide)), runWord_of_illegalOp (classify_of_op_range (by decide))⟩

/-- Settles O9: an illegal LEN makes R70 answer a bad length before any byte is compared, so equal blocks match at LEN 0x10
and at neither 0x00 nor 0x11. -/
theorem badLenRejected : Obligations.BadLenRejected := by
  refine ⟨fun c s hop hlen => ?_, fun a s => ⟨runWord_verify_bad_len a a (by decide) s,
    runWord_verify_bad_len a a (by decide) s, runWord_verify_self a (by decide) s⟩⟩
  have hillegal : ¬ lenLegal (lenOf c) = true := by
    rw [not_lenLegal_iff]
    exact hlen.imp (congrArg BitVec.toNat) id
  exact runWord_of_badLen (classify_of_bad_len hop hillegal) s

end Sys2Proof.Machine
end

section
/-! PROOF. The clocked core at its pins (70_reset_and_hazards.md): reset (R180, R182), the handshake (R190, R192), and
the latency (R194, R196). -/

namespace Sys2Proof.Machine

/-! ## The outputs, by the port -/

@[simp] theorem cmdReady_inReset (s : State) : cmdReady false s = false := rfl

@[simp] theorem rspValid_inReset (s : State) : rspValid false s = false := rfl

theorem cmdReady_iff {rstN : Bool} {s : State} : cmdReady rstN s = true ↔ rstN = true ∧ s.port = .idle := by
  simp [cmdReady]

theorem cmdReady_inFlight {s : State} {n : Nat} {r : Response} (hs : s.port = .inFlight n r) :
    cmdReady true s = false := by simp [cmdReady, hs]

theorem rspValid_idle {s : State} (hs : s.port = .idle) : rspValid true s = false := by simp [rspValid, rspOut, hs]

theorem rspOut_inFlight {s : State} {n : Nat} {r : Response} (hs : s.port = .inFlight n r) :
    rspOut true s = if n = 0 then some (rspWord r) else none := by cases n <;> simp [rspOut, hs]

theorem rspValid_inFlight {s : State} {n : Nat} {r : Response} (hs : s.port = .inFlight n r) :
    rspValid true s = decide (n = 0) := by
  rw [rspValid, rspOut_inFlight hs]
  cases n <;> rfl

theorem inFlight_of_rspValid {s : State} (h : rspValid true s = true) : ∃ r : Response, s.port = .inFlight 0 r := by
  cases hs : s.port with
  | idle => exact absurd h (by rw [rspValid_idle hs]; decide)
  | inFlight n r =>
    obtain rfl : n = 0 := of_decide_eq_true ((rspValid_inFlight hs).symm.trans h)
    exact ⟨r, rfl⟩

/-! ## The latency (R194) -/

theorem one_le_lat (op : Byte) : 1 ≤ lat op := by
  cases ho : opcodeOf op <;> simp [lat, ho]

theorem lat_of_noOpcode {op : Byte} (ho : opcodeOf op = none) : lat op = Config.extraLatencyIllegal + 1 := by
  simp [lat, ho]

/-! ## Runs of edges -/

theorem clockAll_cons_of_next {p : Pins} {s t : State} (h : clock p s = .next t) (ps : List Pins) :
    clockAll (p :: ps) s = clockAll ps t := by rw [clockAll_cons, h, andThen_next]

theorem clockAll_append_of_next {ps : List Pins} {s t : State} (h : clockAll ps s = .next t) (qs : List Pins) :
    clockAll (ps ++ qs) s = clockAll qs t := by rw [clockAll_append, h, andThen_next]

theorem clockAll_singleton_of_next {p : Pins} {s t : State} (h : clock p s = .next t) : clockAll [p] s = .next t :=
  clockAll_cons_of_next h []

/-- A response stays in flight, its wait counted down, over edges without reset that have `rsp_ready` low from the cycle on
in which it is valid. -/
theorem clockAll_inFlight {ps : List Pins} {s : State} {n : Nat} {r : Response} (hps : ∀ p ∈ ps, p.rstN = true)
    (hs : s.port = .inFlight n r) (hready : ∀ p ∈ ps.drop n, p.rspReady = false) :
    clockAll ps s = .next { s with port := .inFlight (n - ps.length) r } := by
  induction ps generalizing s n with
  | nil => rw [List.length_nil, Nat.sub_zero, ← hs]; rfl
  | cons p ps ih =>
    obtain ⟨hp, hps⟩ := List.forall_mem_cons.mp hps
    cases n with
    | zero =>
      obtain ⟨hr, hready⟩ := List.forall_mem_cons.mp hready
      rw [clockAll_cons_of_next (clock_hold hp hs hr), ih hps hs hready, Nat.zero_sub, Nat.zero_sub]
    | succ n =>
      rw [clockAll_cons_of_next (clock_wait hp hs), ih hps rfl hready, List.length_cons, Nat.add_sub_add_right]

/-- Edges that complete no taking of a response have `rsp_ready` low once the response is valid. -/
theorem rspReady_low_of_not_taken {ps : List Pins} {s : State} {n : Nat} {r : Response}
    (hps : ∀ p ∈ ps, p.rstN = true) (hs : s.port = .inFlight n r) (htake : HostEvent.take ∉ eventsOf ps s) :
    ∀ p ∈ ps.drop n, p.rspReady = false := by
  induction ps generalizing s n with
  | nil => rw [List.drop_nil]; exact fun _ hp => nomatch hp
  | cons p ps ih =>
    obtain ⟨hp, hps⟩ := List.forall_mem_cons.mp hps
    cases n with
    | zero =>
      cases hr : p.rspReady with
      | false =>
        rw [eventsOf_cons (clock_hold hp hs hr), eventOf_hold hp hs hr] at htake
        exact List.forall_mem_cons.mpr ⟨hr, ih hps hs htake⟩
      | true =>
        rw [eventsOf_cons (clock_transfer hp hs hr), eventOf_transfer hp hs hr] at htake
        exact absurd List.mem_cons_self htake
    | succ n =>
      rw [eventsOf_cons (clock_wait hp hs), eventOf_wait hp hs] at htake
      exact ih hps rfl htake

/-! ## Two runs with the same control (R194) -/

theorem sameTiming_cases {p q : Port} (h : sameTiming p q) :
    (p = .idle ∧ q = .idle) ∨ ∃ n r r', p = .inFlight n r ∧ q = .inFlight n r' := by
  cases p with
  | idle =>
    cases q with
    | idle => exact .inl ⟨rfl, rfl⟩
    | inFlight n r' => exact h.elim
  | inFlight m r =>
    cases q with
    | idle => exact h.elim
    | inFlight n r' =>
      obtain rfl : m = n := h
      exact .inr ⟨m, r, r', rfl, rfl⟩

theorem sameTiming_idle {p q : Port} (hp : p = .idle) (hq : q = .idle) : sameTiming p q := by
  rw [hp, hq]
  trivial

/-- Ports with the same timing drive the two handshake outputs alike. -/
theorem outputs_of_sameTiming {s t : State} (h : sameTiming s.port t.port) :
    cmdReady true s = cmdReady true t ∧ rspValid true s = rspValid true t := by
  obtain ⟨hs, ht⟩ | ⟨n, r, r', hs, ht⟩ := sameTiming_cases h
  · exact ⟨(cmdReady_iff.mpr ⟨rfl, hs⟩).trans (cmdReady_iff.mpr ⟨rfl, ht⟩).symm,
      (rspValid_idle hs).trans (rspValid_idle ht).symm⟩
  · exact ⟨(cmdReady_inFlight hs).trans (cmdReady_inFlight ht).symm,
      (rspValid_inFlight hs).trans (rspValid_inFlight ht).symm⟩

/-- The wait that an accepted word starts depends on its opcode byte alone. -/
theorem accept_sameTiming {c d : CmdWord} (hop : opOf c = opOf d) (s t : State) :
    ∃ s' t' : State, accept c s = .next s' ∧ accept d t = .next t' ∧ sameTiming s'.port t'.port := by
  obtain ⟨_, _, _, -, hc⟩ := accept_cases c s
  obtain ⟨_, _, _, -, hd⟩ := accept_cases d t
  exact ⟨_, _, hc, hd, congrArg (fun op => lat op - 1) hop⟩

/-- One edge keeps the relation: the port before it and the control pins decide the phase and the wait after it. -/
theorem clock_sameTiming {p q : Pins} {s t : State} (hpq : sameControl p q) (hst : sameTiming s.port t.port) :
    ∃ s' t' : State, clock p s = .next s' ∧ clock q t = .next t' ∧ sameTiming s'.port t'.port := by
  obtain ⟨hrst, hvalid, hready, hop⟩ := hpq
  cases hq : q.rstN with
  | false => exact ⟨_, _, clock_reset (hrst.trans hq) s, clock_reset hq t, trivial⟩
  | true =>
    have hp := hrst.trans hq
    obtain ⟨hs, ht⟩ | ⟨n, r, r', hs, ht⟩ := sameTiming_cases hst
    · cases hv : q.cmdValid with
      | false => exact ⟨s, t, clock_idle hp hs (hvalid.trans hv), clock_idle hq ht hv, hst⟩
      | true =>
        rw [clock_accept hp hs (hvalid.trans hv), clock_accept hq ht hv]
        exact accept_sameTiming hop s t
    · cases n with
      | succ n => exact ⟨_, _, clock_wait hp hs, clock_wait hq ht, rfl⟩
      | zero =>
        cases hr : q.rspReady with
        | false => exact ⟨s, t, clock_hold hp hs (hready.trans hr), clock_hold hq ht hr, hst⟩
        | true => exact ⟨_, _, clock_transfer hp hs (hready.trans hr), clock_transfer hq ht hr, trivial⟩

theorem clockAll_sameTiming {ps qs : List Pins} {s t : State} (hpins : List.Forall₂ sameControl ps qs)
    (hst : sameTiming s.port t.port) :
    ∃ s' t' : State, clockAll ps s = .next s' ∧ clockAll qs t = .next t' ∧ sameTiming s'.port t'.port := by
  induction hpins generalizing s t with
  | nil => exact ⟨s, t, rfl, rfl, hst⟩
  | cons hpq _ ih =>
    obtain ⟨s₁, t₁, hs₁, ht₁, hst₁⟩ := clock_sameTiming hpq hst
    rw [clockAll_cons_of_next hs₁, clockAll_cons_of_next ht₁]
    exact ih hst₁

/-- Settles O58: the relation "same timing" holds along the two runs (`clockAll_sameTiming`), and related states have the
same outputs. -/
theorem latencyIsDataIndependent : Obligations.LatencyIsDataIndependent := by
  refine ⟨one_le_lat, fun op op' ho ho' => (lat_of_noOpcode ho).trans (lat_of_noOpcode ho').symm, ?_⟩
  intro ps qs s t hpins hst
  obtain ⟨s', t', hs', ht', hst'⟩ := clockAll_sameTiming hpins hst
  exact ⟨s', t', hs', ht', hst', outputs_of_sameTiming hst'⟩

/-! ## Reset (R180, R182) -/

/-- An edge without reset that accepts no word leaves the registers as they are. -/
theorem reset_or_accepted_of_registers_ne {p : Pins} {s t : State} (hclock : clock p s = .next t)
    (hne : t.h ≠ s.h ∨ t.acc ≠ s.acc) : p.rstN = false ∨ (p.cmdValid = true ∧ cmdReady p.rstN s = true) := by
  have hkept : ¬ (t.h = s.h ∧ t.acc = s.acc) := fun ⟨hh, hacc⟩ => hne.elim (· hh) (· hacc)
  obtain ⟨hp, -⟩ | ⟨hp, ⟨-, -, rfl⟩ | ⟨hs, hv, -⟩ | ⟨n, r, -, rfl⟩ | ⟨r, -, -, rfl⟩ | ⟨r, -, -, rfl⟩⟩ :=
    clock_cases hclock
  · exact .inl hp
  · exact absurd ⟨rfl, rfl⟩ hkept
  · exact .inr ⟨hv, cmdReady_iff.mpr ⟨hp, hs⟩⟩
  · exact absurd ⟨rfl, rfl⟩ hkept
  · exact absurd ⟨rfl, rfl⟩ hkept
  · exact absurd ⟨rfl, rfl⟩ hkept

/-- Settles O54: `resetCore` is the state after the edge, idle, hence ready once `rst_n` is 1; the rest is
`reset_or_accepted_of_registers_ne` and `runCommands_seth_init`. -/
theorem resetAtThePins : Obligations.ResetAtThePins := by
  refine ⟨fun s => ⟨cmdReady_inReset s, rspValid_inReset s⟩, fun p q s hp hq => ?_,
    fun p s t => reset_or_accepted_of_registers_ne, fun s => ?_⟩
  · rw [hq]
    exact ⟨resetCore s, clock_reset hp s, resetCore_h s, resetCore_acc s, resetCore_pending s,
      rspValid_idle (resetCore_port s), cmdReady_iff.mpr ⟨rfl, resetCore_port s⟩⟩
  · obtain ⟨u, hrun, hh, hacc, -⟩ := runCommands_seth_init ZERO s
    exact ⟨transfer u, hrun [], hh, hacc⟩

/-- Settles O55: without a taking the response stays in flight (`clockAll_inFlight`), and the reset edge drops it. -/
theorem resetAbandonsCommand : Obligations.ResetAbandonsCommand := by
  refine ⟨fun p s hp => clock_reset hp s, fun p q ps s hs hp hv hps htake hq => ?_⟩
  obtain ⟨r, h, acc, -, haccept⟩ := accept_cases p.cmd s
  have hclock := (clock_accept hp hs hv).trans haccept
  have hrest : HostEvent.take ∉ eventsOf ps _ := fun hmem =>
    htake (eventsOf_cons hclock ps ▸ List.mem_append_right _ hmem)
  have hready := rspReady_low_of_not_taken hps rfl hrest
  rw [clockAll_cons_of_next hclock, clockAll_append_of_next (clockAll_inFlight hps rfl hready)]
  exact clockAll_singleton_of_next (clock_reset hq _)

/-! ## The response of an accepted command (R190, R192, R196) -/

/-- Settles O56: acceptance leaves `LAT - 1` cycles to wait, and the edges that follow, no more of them than that, count
them down (`clockAll_inFlight`). -/
theorem answeredAfterLatency : Obligations.AnsweredAfterLatency := by
  intro p ps s hs hp hv hps hlen
  obtain ⟨r, h, acc, hrun, haccept⟩ := accept_cases p.cmd s
  have hnone : ps.drop (lat (opOf p.cmd) - 1) = [] := List.drop_eq_nil_of_le (by omega)
  have hwait := clockAll_inFlight hps
    (s := { s with h := h, acc := acc, port := .inFlight (lat (opOf p.cmd) - 1) r }) rfl
    (hnone ▸ fun _ hmem => nomatch hmem)
  have hdue : lat (opOf p.cmd) - 1 - ps.length = 0 ↔ ps.length + 1 = lat (opOf p.cmd) := by omega
  refine ⟨_, _, r, (clockAll_cons_of_next ((clock_accept hp hs hv).trans haccept) ps).trans hwait, hrun, rfl,
    cmdReady_inFlight rfl, rfl, rfl, rfl, ?_⟩
  rw [rspOut_inFlight rfl, if_congr hdue rfl rfl]

/-- Settles O57: with no cycle left to wait and `rsp_ready` low nothing changes (`clockAll_inFlight`), and the edge with
`rsp_ready` makes the transfer. -/
theorem responseHeldUntilTaken : Obligations.ResponseHeldUntilTaken := by
  intro ps q s hvalid hps hq hqr
  obtain ⟨r, hs⟩ := inFlight_of_rspValid hvalid
  have hheld : clockAll ps s = .next s := by
    rw [clockAll_inFlight (fun p hp => (hps p hp).1) hs (fun p hp => (hps p hp).2), Nat.zero_sub, ← hs]
  have htaken : clockAll (ps ++ [q]) s = .next (transfer s) :=
    (clockAll_append_of_next hheld [q]).trans (clockAll_singleton_of_next (clock_transfer hq hs hqr))
  refine ⟨hheld, r, transfer s, rspOut_inFlight hs, htaken, ?_, cmdReady_iff.mpr ⟨rfl, rfl⟩, rspValid_idle rfl⟩
  rw [transfer, pending_inFlight hs]

/-! ## The host's duty at the command port (R192) -/

/-- Two cycles one after the other: the word of the first, not accepted in it, is still presented in the second. -/
theorem word_kept_once {p q : Pins} {ps : List Pins} {s : State} (hobeys : hostObeys (p :: q :: ps) s)
    (hp : p.rstN = true) (hv : p.cmdValid = true) (hready : cmdReady true s = false) :
    q.cmdValid = true ∧ q.cmd = p.cmd := hobeys.1 hv (hp ▸ hready)

theorem hostObeys_tail {p : Pins} {ps : List Pins} {s t : State} (hobeys : hostObeys (p :: ps) s)
    (hclock : clock p s = .next t) : hostObeys ps t := by
  cases ps with
  | nil => trivial
  | cons q ps =>
    rw [hostObeys, hclock] at hobeys
    exact hobeys.2

/-- The core is not ready before any of the edges. -/
def neverReady (ps : List Pins) (s : State) : Prop :=
  ∀ k < ps.length, ∃ u : State, clockAll (ps.take k) s = .next u ∧ cmdReady true u = false

theorem cmdReady_of_neverReady {p : Pins} {ps : List Pins} {s : State} (h : neverReady (p :: ps) s) :
    cmdReady true s = false := by
  obtain ⟨u, hu, hready⟩ := h 0 (Nat.succ_pos _)
  obtain rfl := Host.Outcome.next.inj hu
  exact hready

theorem neverReady_tail {p : Pins} {ps : List Pins} {s t : State} (h : neverReady (p :: ps) s)
    (hclock : clock p s = .next t) : neverReady ps t := by
  intro k hk
  obtain ⟨u, hu, hready⟩ := h (k + 1) (Nat.succ_lt_succ hk)
  exact ⟨u, (clockAll_cons_of_next hclock _).symm.trans hu, hready⟩

/-- A word presented to a core that is never ready is still on the pins after those edges, by induction on them. -/
theorem word_kept {p q : Pins} {ps : List Pins} {s : State} (hobeys : hostObeys (p :: (ps ++ [q])) s)
    (hp : p.rstN = true) (hps : ∀ r ∈ ps, r.rstN = true) (hv : p.cmdValid = true) (hnever : neverReady (p :: ps) s) :
    q.cmdValid = true ∧ q.cmd = p.cmd := by
  induction ps generalizing p s with
  | nil => exact word_kept_once hobeys hp hv (cmdReady_of_neverReady hnever)
  | cons p' ps ih =>
    obtain ⟨hp', hps⟩ := List.forall_mem_cons.mp hps
    obtain ⟨hv', hcmd'⟩ := word_kept_once hobeys hp hv (cmdReady_of_neverReady hnever)
    obtain ⟨t, hclock, -⟩ := clock_simulates p s
    obtain ⟨hvq, hcmd⟩ := ih (hostObeys_tail hobeys hclock) hp' hps hv' (neverReady_tail hnever hclock)
    exact ⟨hvq, hcmd.trans hcmd'⟩

/-- Settles O60: the word first presented is still on the pins (`word_kept`) at the edge that finds the core ready. -/
theorem presentedWordIsAccepted : Obligations.PresentedWordIsAccepted := by
  intro p ps q s t hobeys hv hp hps hq hnotReady _ hready
  have hnever : neverReady (p :: ps) s := fun k hk => hnotReady k (Nat.le_of_lt_succ hk)
  obtain ⟨hvq, hcmd⟩ := word_kept hobeys hp hps hv hnever
  rw [clock_accept hq (cmdReady_iff.mp hready).2 hvq, hcmd]

end Sys2Proof.Machine
end
